-- ==== Sys2Proof/Word.lean ====
section
/-! DEFINITION. Bytes, bus words and the fixed byte-array sizes of the core (rules R7, R12). -/

namespace Sys2Proof

/-- A byte, an unsigned integer 0 to 255 (R12). -/
abbrev Byte := BitVec 8

/-- A 32-bit bus word (R52) or command word (R80). -/
abbrev Word := BitVec 32

/-- A byte array of fixed length: a register or a value whose size R7 fixes. Byte sequences of any length are
`List Byte`, index 0 first (R12). -/
abbrev Bytes (n : Nat) := Vector Byte n

/-- HALF_BYTES = 8 (R7): Left, Right, and the round function's output. -/
abbrev Half := Bytes 8

/-- BLOCK_BYTES = 16 (R7, R89). -/
abbrev Block := Bytes 16

/-- IV_BYTES = 16 (R7): the chaining value. -/
abbrev Chaining := Bytes 16

/-- RK_BYTES = DIGEST_BYTES = TAG_BYTES = 32 (R7): a hash output. -/
abbrev Digest := Bytes 32

/-- A round key is 32 bytes (R7, R89). -/
abbrev RoundKey := Digest

/-- "an ordered sequence of exactly 16 RoundKeys" (R7 ROUNDS, R23). -/
abbrev RoundKeys := Vector RoundKey 16

end Sys2Proof
end

