-- ==== Sys2Proof/Syntax.lean ====
section
/-! DEFINITION. The thirteen commands of R84, one constructor per row of spec/opcode_table.json. -/

namespace Sys2Proof

/-- A command. Its only explicit operand is FROUND's round-key index, "an unsigned number 0 to 15 used as the index
of a round-key register" (R82); every other operand is implicit (R38). -/
inductive Instr where
  /-- KSDERIVE, R102. -/
  | ksderive
  /-- FROUND r, R112. -/
  | fround (r : Fin 16)
  /-- ENCBLK, R124. -/
  | encblk
  /-- ENCBLKC, R125. -/
  | encblkc
  /-- DECBLK, R126. -/
  | decblk
  /-- DECBLKC, R127. -/
  | decblkc
  /-- PAD, R143. -/
  | pad
  /-- UNPAD, R144. -/
  | unpad
  /-- TAGGEN, R153. -/
  | taggen
  /-- TAGVFY, R154. -/
  | tagvfy
  /-- ENCRYPT, R162. -/
  | encrypt
  /-- DECRYPT, R165. -/
  | decrypt
  /-- ZEROIZE, R182. -/
  | zeroize
  deriving DecidableEq, Repr

end Sys2Proof
end

