-- ==== Sys2Proof/Decode.lean ====
section
/-! DEFINITION. The decoder of command words (R80 to R86), total, and the encoder. -/

namespace Sys2Proof

/-- Why a command word is reserved (R83). All three end the same way (R85). -/
inductive Reserved where
  /-- Some bit of 31:12 is not 0. -/
  | highBits
  /-- Bits 11:8 are not 0 and the opcode is not FROUND's. -/
  | indexBits
  /-- The opcode is 0x00 or 0x0E to 0xFF. -/
  | opcode
  deriving DecidableEq, Repr

/-- "every 32-bit word is exactly one command or reserved" (R83). -/
inductive Decoded where
  /-- The word is this command. -/
  | command (i : Instr)
  /-- The word is reserved. -/
  | reserved (why : Reserved)
  deriving DecidableEq, Repr

/-- `op = w[7:0]` (R80). -/
def opField (w : Word) : BitVec 8 := w.extractLsb' 0 8

/-- `r = w[11:8]` (R80, R82). -/
def rField (w : Word) : BitVec 4 := w.extractLsb' 8 4

/-- `w[31:12]`, must be 0 (R80). -/
def highField (w : Word) : BitVec 20 := w.extractLsb' 12 20

/-- The rows of R84 in format N, by opcode. -/
def formatN : List (BitVec 8 × Instr) :=
  [ (0x01, .ksderive), (0x03, .encblk), (0x04, .encblkc), (0x05, .decblk), (0x06, .decblkc), (0x07, .pad),
    (0x08, .unpad), (0x09, .taggen), (0x0A, .tagvfy), (0x0B, .encrypt), (0x0C, .decrypt), (0x0D, .zeroize) ]

/-- R83's decoding of a command word, its tests in R83's order. -/
def decode (w : Word) : Decoded :=
  if highField w ≠ 0 then .reserved .highBits
  else if opField w = 0x02 then .command (.fround (rField w).toFin)
  else if rField w ≠ 0 then .reserved .indexBits
  else
    match formatN.lookup (opField w) with
    | some i => .command i
    | none => .reserved .opcode

/-- The opcode of each command (R84, column op). -/
def Instr.op (i : Instr) : BitVec 8 :=
  match i with
  | .ksderive => 0x01
  | .fround _ => 0x02
  | .encblk => 0x03
  | .encblkc => 0x04
  | .decblk => 0x05
  | .decblkc => 0x06
  | .pad => 0x07
  | .unpad => 0x08
  | .taggen => 0x09
  | .tagvfy => 0x0A
  | .encrypt => 0x0B
  | .decrypt => 0x0C
  | .zeroize => 0x0D

/-- The field `r` of a command's word: FROUND's index, 0 in format N (R80). -/
def Instr.index (i : Instr) : BitVec 4 :=
  match i with
  | .fround r => BitVec.ofFin r
  | .ksderive | .encblk | .encblkc | .decblk | .decblkc | .pad | .unpad | .taggen | .tagvfy | .encrypt | .decrypt
  | .zeroize => 0

/-- The command word: bits 31:12 zero, then `r`, then `op` (R80, R84). -/
def encode (i : Instr) : Word := i.op.setWidth 32 ||| i.index.setWidth 32 <<< 8

/-- The command that the decoder reads from a table row's bits (numbered as a 32-bit word, higher bits 0). -/
def decodeTableWord (nbits w : Nat) : Option Instr :=
  match decode (BitVec.ofNat 32 (w % 2 ^ nbits)) with
  | .command i => some i
  | .reserved _ => none

end Sys2Proof
end

