-- ==== Sys2Proof/Machine/State.lean ====
section
/-! DEFINITION. The state of the core: the thirteen pieces of R20, and three fields of the model's own through which
the host and the entropy source act (R6, R9, R11). -/

namespace Sys2Proof.Machine

/-- A buffer's contents by byte index: the pairs (index, byte) with indexes strictly rising and no byte 0x00, which is
what an unlisted index reads as (R37: every buffer is zero after reset). `Memory.wf` in Machine/Ops.lean is that form. -/
abbrev Memory := List Host.Cell

/-- "error: one of the four failure reasons of esk-spec §7" (R18, R191). -/
inductive Error where
  /-- The master key has length 0. -/
  | emptyKey
  /-- The DECRYPT input cannot be parsed. -/
  | truncatedInput
  /-- The recomputed tag differs from the given tag. -/
  | integrityFailure
  /-- The bytes to unpad do not end in valid padding. -/
  | invalidPadding
  deriving DecidableEq, Repr

/-- "fault: one of the two failure reasons the spec adds for the wrapper" (R18, R192). A command that ends in one is an
ordinary next state with the code in ERR; it is no stop of the model. -/
inductive CommandFault where
  /-- The word written to CMD is reserved (R83). -/
  | illegalCommand
  /-- FROUND or a block command was issued with `RKV = 0`. -/
  | operandNotReady
  deriving DecidableEq, Repr

/-- How a command ended: the contents of ERR. "7 to 15: never written" (R190), so ERR has these seven values (R36 e). -/
inductive Ending where
  /-- Code 0: the last command succeeded, or none has run since reset or ZEROIZE (R31). -/
  | success
  /-- Codes 1 to 4. -/
  | error (e : Error)
  /-- Codes 5 and 6. -/
  | fault (f : CommandFault)
  deriving DecidableEq, Repr

/-- What the host, the one bus master, does next (R6, R11, R52); or the reset input is asserted (R220). -/
inductive HostMove where
  /-- `MemRead(addr, size)`: a bus read of `size` bytes at offset `addr`. -/
  | read (addr : Word) (size : Nat)
  /-- `MemWrite(addr, size, data)`. -/
  | write (addr : Word) (size : Nat) (data : Word)
  /-- The reset input is asserted and released. -/
  | reset
  deriving DecidableEq, Repr

/-- What the bus answered to a transaction (R52, R54). -/
inductive BusReply where
  /-- A read completed with this word. -/
  | readDone (w : Word)
  /-- A write completed. -/
  | writeDone
  /-- A read was refused as a bus error; the returned word is 0. -/
  | readRefused
  /-- A write was refused as a bus error. -/
  | writeRefused
  deriving DecidableEq, Repr

/-- The state. Fields `mkw` to `err` are R20's, "the whole state of the core ... and nothing else"; `draws`, `host` and
`reply` are the model's own (logs 2, 4, 5) and stand for what lies outside the core. -/
structure State where
  /-- MKW, the master-key buffer (R22). -/
  mkw : Memory
  /-- MKLEN, 32 bits (R22, R32). -/
  mklen : Word
  /-- RK[0] to RK[15] (R23). -/
  rk : RoundKeys
  /-- RKV, round keys valid (R23). -/
  rkv : Bool
  /-- IV (R24). -/
  iv : Chaining
  /-- BLK (R25). -/
  blk : Block
  /-- FO (R26). -/
  fo : Half
  /-- TAG (R27). -/
  tag : Digest
  /-- IBUFW, the input buffer (R28). -/
  ibufw : Memory
  /-- ILEN, 32 bits (R28, R32). -/
  ilen : Word
  /-- OBUFW, the output buffer (R29). -/
  obufw : Memory
  /-- OLEN, 32 bits (R29, R32). -/
  olen : Word
  /-- ERR (R31, R190). -/
  err : Ending
  /-- How many samples of the entropy input have been taken: selects the free value of the next one. -/
  draws : Nat
  /-- The host's moves still to come, in the order it issues them (R52, R64). -/
  host : List HostMove
  /-- What the bus answered to the last transaction since reset. -/
  reply : Option BusReply
  deriving DecidableEq, Repr

/-- Sixteen round keys of zero bytes (R23). -/
def zeroKeys : RoundKeys := Vector.replicate 16 (Vector.replicate 32 0)

/-- "After reset every piece of state is zero" (R37). The model's own fields: no sample taken, no move waiting, no
transaction answered (logs 2, 4, 5). -/
def State.reset : State where
  mkw := []
  mklen := 0
  rk := zeroKeys
  rkv := false
  iv := Vector.replicate 16 0
  blk := Vector.replicate 16 0
  fo := Vector.replicate 8 0
  tag := Vector.replicate 32 0
  ibufw := []
  ilen := 0
  obufw := []
  olen := 0
  err := .success
  draws := 0
  host := []
  reply := none

/-- The reasons a step may stop with a fault: there are none. "Every command terminates ... the core has no hang and no
stuck state" (R202), and the errors, faults and bus errors of R190 and R54 are next states. Safe. -/
inductive Fault where
  deriving DecidableEq, Repr

/-- The reasons a step may be refused. -/
inductive Refusal where
  /-- Raised by `exec` for an instruction with no meaning in the model; no instruction of this model raises it. Safe. -/
  | notModelled (mnemonic : String)
  deriving DecidableEq, Repr

end Sys2Proof.Machine
end

