-- ==== Sys2Proof/Machine/Flags.lean ====
section
/-! DEFINITION. The two status fields: ERR's codes (R190) and the STATUS word (R31). RKV is a field of State; what sets
and clears it stands with KSDERIVE (R102) and `State.clearKeys` (R23). There are "no flags other than RKV and ERR"
(R20). -/

namespace Sys2Proof.Machine

/-- The codes of the four errors (R190). -/
def Error.code (e : Error) : BitVec 4 :=
  match e with
  | .emptyKey => 1
  | .truncatedInput => 2
  | .integrityFailure => 3
  | .invalidPadding => 4

/-- The codes of the two faults (R190). -/
def CommandFault.code (f : CommandFault) : BitVec 4 :=
  match f with
  | .illegalCommand => 5
  | .operandNotReady => 6

/-- The 4-bit content of ERR (R190). -/
def Ending.code (e : Ending) : BitVec 4 :=
  match e with
  | .success => 0
  | .error e => e.code
  | .fault f => f.code

/-- STATUS, "assembled from ERR and RKV at the time of the read": ERR in bits 3:0, RKV in bit 4, bits 31:5 read as 0
(R31). -/
def State.status (s : State) : Word := s.err.code.setWidth 32 ||| (BitVec.ofBool s.rkv).setWidth 32 <<< 4

end Sys2Proof.Machine
end

