-- ==== Sys2Proof/Config.lean ====
section
/-! DEFINITION. The open parameters of the core: the functions of R8, the entropy input of R9 and R35, the
capacities of R10. `Params` gathers them, so that the cipher's functions can be run under the spec's test
instantiation; `Config.params` is the machine's own choice, about which Lean can prove nothing but its types. -/

namespace Sys2Proof

/-- The open parameters (R8, R9, R10). -/
structure Params where
  /-- HASH (R8, decision D1): any bytes to 32 bytes, total, nothing else known. -/
  hash : List Byte → Digest
  /-- KEYED_HASH (R8, decision D2): key and data to 32 bytes. -/
  keyedHash : List Byte → List Byte → Digest
  /-- MAC_KEY_OF (R8, decision D3): which key the tag is keyed with. -/
  macKeyOf : List Byte → List Byte
  /-- The 128-bit value at the entropy input `rnd` (R35, R51) at the `n`-th sample the core takes. -/
  rnd : Nat → BitVec 128
  /-- MK_MAX, capacity of the master-key buffer in bytes (R10). -/
  mkMax : Nat
  /-- IBUF_MAX, capacity of the input buffer in bytes (R10). -/
  ibufMax : Nat

/-- OBUF_MAX = IBUF_MAX + 64 (R10). -/
def Params.obufMax (P : Params) : Nat := P.ibufMax + 64

/-- HASH of the machine: uninterpreted (log 1). -/
opaque Config.hash : List Byte → Digest

/-- KEYED_HASH of the machine: uninterpreted (log 1). -/
opaque Config.keyedHash : List Byte → List Byte → Digest

/-- MAC_KEY_OF of the machine: uninterpreted, not fixed to the spec's default identity (log 1). -/
opaque Config.macKeyOf : List Byte → List Byte

/-- The entropy input's samples: free values under no law (R9, log 2). -/
opaque Config.rnd : Nat → BitVec 128

/-- Fixes MK_MAX = 4 (k + 1): the 16384 values are exactly the multiples of 4 from 4 to 65536 (R10, log 3). -/
opaque Config.mkStep : Fin 16384

/-- Fixes IBUF_MAX = 4 (k + 16): the values are exactly the multiples of 4 from 64 to 0x0FFF_FFC0 (R10, log 3). -/
opaque Config.ibufStep : Fin 67108833

/-- The machine's parameters. -/
def Config.params : Params where
  hash := Config.hash
  keyedHash := Config.keyedHash
  macKeyOf := Config.macKeyOf
  rnd := Config.rnd
  mkMax := 4 * (Config.mkStep.val + 1)
  ibufMax := 4 * (Config.ibufStep.val + 16)

end Sys2Proof
end

