-- ==== Sys2Proof/Machine/Bytes.lean ====
section
/-! DEFINITION. Operations on byte arrays (R12, R14), the packing of bytes into bus words (R55), and the reading of the
entropy input as bytes (R51). -/

namespace Sys2Proof.Machine

/-- `n` bytes of value 0x00, `rep(0x00, n)` (R12). -/
def zeroBytes (n : Nat) : Bytes n := Vector.replicate n 0

/-- `a xor b`: `c[i] = a[i] XOR b[i]` (R14). -/
def xorBytes {n : Nat} (a b : Bytes n) : Bytes n := Vector.ofFn fun i => a[i] ^^^ b[i]

/-- `v[start .. start + n]` (R12). -/
def slice {m : Nat} (v : Bytes m) (start n : Nat) (h : start + n ≤ m := by omega) : Bytes n :=
  Vector.ofFn fun i => v[start + i.val]

/-- The first `n` bytes of a sequence as an array. Used only on sequences of at least `n` bytes, which
`ofBytes_toList` says it copies; a missing byte reads 0x00. -/
def ofBytes (n : Nat) (l : List Byte) : Bytes n := Vector.ofFn fun i => l.getD i.val 0

/-- Left, bytes 0 to 7 of a block (R25, R89). -/
def left (b : Block) : Half := slice b 0 8

/-- Right, bytes 8 to 15 of a block (R25, R89). -/
def right (b : Block) : Half := slice b 8 8

/-- `L || R`, "Left first" (R89). -/
def join (l r : Half) : Block :=
  Vector.ofFn fun i => if h : i.val < 8 then l[i.val] else r[i.val - 8]

/-- The word that holds four consecutive bytes, the lowest index in bits 7:0 (R55). -/
def wordOf (b0 b1 b2 b3 : Byte) : Word :=
  b0.setWidth 32 ||| b1.setWidth 32 <<< 8 ||| b2.setWidth 32 <<< 16 ||| b3.setWidth 32 <<< 24

/-- Byte `j` of a word, bits 8j+7 to 8j (R55). -/
def byteOf (w : Word) (j : Nat) : Byte := w.extractLsb' (8 * j) 8

/-- Byte `i` of an array (R12); an index past the end is never asked for. -/
def byteAt {n : Nat} (v : Bytes n) (i : Nat) : Byte := if h : i < n then v[i] else 0

/-- Word `k` of an array mapped through a window: bytes 4k to 4k+3 (R55). -/
def wordAt {n : Nat} (v : Bytes n) (k : Nat) : Word :=
  wordOf (byteAt v (4 * k)) (byteAt v (4 * k + 1)) (byteAt v (4 * k + 2)) (byteAt v (4 * k + 3))

/-- Writing word `k` of an array "sets these four bytes and no others" (R55). -/
def setWordAt {n : Nat} (v : Bytes n) (k : Nat) (w : Word) : Bytes n :=
  Vector.ofFn fun i => if i.val / 4 = k then byteOf w (i.val % 4) else v[i]

/-- `iv_draw` from the sampled entropy input: "byte `j` of `iv_draw` is `rnd[8j+7:8j]`" (R51). -/
def drawOf (r : BitVec 128) : Chaining := Vector.ofFn fun j => r.extractLsb' (8 * j.val) 8

/-- `zext_32(v)`, the 32-bit word whose value is `v` (R14). -/
def zext32 (v : Nat) : Word := BitVec.ofNat 32 v

end Sys2Proof.Machine
end

