-- ==== Sys2Proof/Machine/Ops.lean ====
section
/-! DEFINITION. The shared operations: reading and writing a buffer, `SetOut` (R29), ending a command (R15, R190), and
what the host's moves do besides their own effect (R52, R220).

Ending a command with a code is all that taking an exception is on this hardware: "There is no vector table, no handler
address, no saved program counter, no mode switch, no stack and no mask to change" (R197), and "There is no return
instruction and nothing to restore" (R198), so there is no return operation. -/

namespace Sys2Proof.Machine

/-- The byte at an index; an unlisted index reads 0x00 (R37). -/
def Memory.read (m : Memory) (a : Nat) : Byte :=
  match m with
  | [] => 0
  | (x, c) :: rest => if x = a then c else Memory.read rest a

/-- The buffer with byte `b` at index `a`, in canonical form: a byte 0x00 is not listed. -/
def Memory.write (m : Memory) (a : Nat) (b : Byte) : Memory :=
  match m with
  | [] => if b = 0 then [] else [(a, b)]
  | (x, c) :: rest =>
    if a < x then (if b = 0 then (x, c) :: rest else (a, b) :: (x, c) :: rest)
    else if a = x then (if b = 0 then rest else (a, b) :: rest)
    else (x, c) :: Memory.write rest a b

/-- The canonical form: indexes strictly rising, no listed byte 0x00. -/
abbrev Memory.wf (m : Memory) : Prop :=
  m.Pairwise (fun x y => x.1 < y.1) ∧ ∀ c ∈ m, c.2 ≠ 0

/-- The buffer that holds the bytes of `l` from index `start` on and 0x00 elsewhere. -/
def Memory.ofListFrom (start : Nat) (l : List Byte) : Memory :=
  match l with
  | [] => []
  | b :: rest =>
    if b = 0 then Memory.ofListFrom (start + 1) rest else (start, b) :: Memory.ofListFrom (start + 1) rest

/-- The buffer that holds `l` from index 0 and 0x00 from `len(l)` on. -/
def Memory.ofList (l : List Byte) : Memory := Memory.ofListFrom 0 l

/-- The first `n` bytes, `m[0 .. n]` (R12). -/
def Memory.firstBytes (m : Memory) (n : Nat) : List Byte := (List.range n).map m.read

/-- Word `k` of a buffer window (R55). -/
def Memory.readWord (m : Memory) (k : Nat) : Word :=
  wordOf (m.read (4 * k)) (m.read (4 * k + 1)) (m.read (4 * k + 2)) (m.read (4 * k + 3))

/-- Writing word `k` of a buffer window sets bytes 4k to 4k+3 (R55). -/
def Memory.writeWord (m : Memory) (k : Nat) (w : Word) : Memory :=
  (((m.write (4 * k) (byteOf w 0)).write (4 * k + 1) (byteOf w 1)).write (4 * k + 2) (byteOf w 2)).write (4 * k + 3)
    (byteOf w 3)

/-- `SetOut(X)` (R29): OLEN becomes `len(X)`, OBUFW holds `X` and 0x00 to its end. -/
def State.setOut (x : List Byte) (s : State) : State :=
  { s with obufw := Memory.ofList x, olen := zext32 x.length }

/-- A command ends with this content of ERR; nothing else is recorded (R190). -/
def State.finish (e : Ending) (s : State) : State := { s with err := e }

/-- `ERR <- 0` at the end of a command that ran to its end (R190). -/
def State.succeed (s : State) : State := s.finish .success

/-- `raise E` for an error of R191: "sets ERR <- code(E) and ends the command"; the writes made before it are kept
(R15). -/
def State.raise (e : Error) (s : State) : State := s.finish (.error e)

/-- `raise` for a fault of R192: only ERR changes. -/
def State.raiseFault (f : CommandFault) (s : State) : State := s.finish (.fault f)

/-- The shared ending of the commands whose result, if there is one, goes to OBUF: `SetOut` of the result and success,
or `SetOut([])` and the error (R144, R162, R165). -/
def State.deliver (r : Except Error (List Byte)) (s : State) : State :=
  match r with
  | .ok x => (s.setOut x).succeed
  | .error e => (s.setOut []).raise e

/-- RK all zero and `RKV <- 0`: the invalidation of R23, also a part of the scrub (R181) and of a failing KSDERIVE
(R102). -/
def State.clearKeys (s : State) : State := { s with rk := zeroKeys, rkv := false }

/-- The operation `Scrub` (R181). It "does not touch IV, BLK, FO, TAG, OBUFW, OLEN or ERR". -/
def State.scrub (s : State) : State :=
  { s.clearKeys with mkw := [], mklen := 0, ibufw := [], ilen := 0 }

/-- One transaction is taken from the host's list and answered (R52). -/
def State.answer (rest : List HostMove) (r : BusReply) (s : State) : State :=
  { s with host := rest, reply := some r }

/-- Reset: every piece of R20's state takes its value of R37 (R220). The entropy source and the host's moves are
outside the core and stay; no transaction has been answered since. -/
def State.resetCore (rest : List HostMove) (s : State) : State :=
  { State.reset with draws := s.draws, host := rest }

end Sys2Proof.Machine
end

