-- ==== Sys2Proof/Machine/Operands.lean ====
section
/-! DEFINITION. The operand values the commands read (R22, R25, R28, R29, R35). Every operand but FROUND's index is one
of these or a register of State read whole (R38, R63). -/

namespace Sys2Proof.Machine

/-- `MK = MKW[0..MKLEN]` (R22). -/
def State.keyBytes (s : State) : List Byte := s.mkw.firstBytes s.mklen.toNat

/-- `IBUF = IBUFW[0..ILEN]` (R28). -/
def State.ibuf (s : State) : List Byte := s.ibufw.firstBytes s.ilen.toNat

/-- `OBUF = OBUFW[0..OLEN]` (R29). -/
def State.obuf (s : State) : List Byte := s.obufw.firstBytes s.olen.toNat

/-- `BLK[8..16]`, FROUND's operand (R112). -/
def State.blkRight (s : State) : Half := right s.blk

/-- `iv_draw`: the entropy input at the next sample (R35). -/
def State.ivDraw (P : Params) (s : State) : Chaining := drawOf (P.rnd s.draws)

/-- The core samples the entropy input once (R35): the next sample is another free value. -/
def State.sampled (s : State) : State := { s with draws := s.draws + 1 }

end Sys2Proof.Machine
end

