-- ==== Sys2Proof/Machine/Bus.lean ====
section
/-! DEFINITION. The host bus: the address map (R53), bus errors (R54), reads (R30 to R33, R59, R60) and writes (R23,
R32, R56, R57, R60). -/

namespace Sys2Proof.Machine

/-- A location of the address map (R53); `k` is the word's index in its window. -/
inductive Loc where
  /-- 0x00, write only: a write starts a command (R30). -/
  | cmd
  /-- 0x04, read only (R31). -/
  | status
  /-- 0x08, read and write (R32). -/
  | mklen
  /-- 0x0C, read and write (R32). -/
  | ilen
  /-- 0x10, read only (R32). -/
  | olen
  /-- 0x14, read only (R33). -/
  | capMk
  /-- 0x18, read only (R33). -/
  | capIbuf
  /-- 0x20 to 0x2F, read and write (R60). -/
  | iv (k : Nat)
  /-- 0x30 to 0x3F, read and write (R60). -/
  | blk (k : Nat)
  /-- 0x40 to 0x47, read only (R60). -/
  | fo (k : Nat)
  /-- 0x60 to 0x7F, read and write (R60). -/
  | tag (k : Nat)
  /-- The MK window, write only (R56). -/
  | mk (k : Nat)
  /-- The IBUF window, read and write (R57). -/
  | ibuf (k : Nat)
  /-- The OBUF window, read only (R59). -/
  | obuf (k : Nat)
  deriving DecidableEq, Repr

/-- Base of the MK window (R53). -/
def mkBase : Nat := 0x00010000

/-- Base of the IBUF window (R53). -/
def ibufBase : Nat := 0x10000000

/-- Base of the OBUF window (R53). -/
def obufBase : Nat := 0x20000000

/-- The location of an aligned offset; `none` is reserved (R53). -/
def locate (P : Params) (a : Nat) : Option Loc :=
  if a = 0x00 then some .cmd
  else if a = 0x04 then some .status
  else if a = 0x08 then some .mklen
  else if a = 0x0C then some .ilen
  else if a = 0x10 then some .olen
  else if a = 0x14 then some .capMk
  else if a = 0x18 then some .capIbuf
  else if 0x20 ≤ a ∧ a < 0x30 then some (.iv ((a - 0x20) / 4))
  else if 0x30 ≤ a ∧ a < 0x40 then some (.blk ((a - 0x30) / 4))
  else if 0x40 ≤ a ∧ a < 0x48 then some (.fo ((a - 0x40) / 4))
  else if 0x60 ≤ a ∧ a < 0x80 then some (.tag ((a - 0x60) / 4))
  else if mkBase ≤ a ∧ a < mkBase + P.mkMax then some (.mk ((a - mkBase) / 4))
  else if ibufBase ≤ a ∧ a < ibufBase + P.ibufMax then some (.ibuf ((a - ibufBase) / 4))
  else if obufBase ≤ a ∧ a < obufBase + P.obufMax then some (.obuf ((a - obufBase) / 4))
  else none

/-- The location a transaction reaches: `none` when it is refused for its alignment, its size or a reserved address
(R54 cases a, b, c). -/
def target (P : Params) (addr : Word) (size : Nat) : Option Loc :=
  if addr.toNat % 4 ≠ 0 then none
  else if size ≠ 4 then none
  else locate P addr.toNat

/-- The word a read of a location returns. CMD and the MK window are write only: "reads return 0" (R53, R54). -/
def Loc.word (P : Params) (loc : Loc) (s : State) : Word :=
  match loc with
  | .cmd => 0
  | .status => s.status
  | .mklen => s.mklen
  | .ilen => s.ilen
  | .olen => s.olen
  | .capMk => zext32 P.mkMax
  | .capIbuf => zext32 P.ibufMax
  | .iv k => wordAt s.iv k
  | .blk k => wordAt s.blk k
  | .fo k => wordAt s.fo k
  | .tag k => wordAt s.tag k
  | .mk _ => 0
  | .ibuf k => s.ibufw.readWord k
  | .obuf k => s.obufw.readWord k

/-- `MemRead` (R52): the word, or a bus error. "No read has a side effect" (R62). -/
def busRead (P : Params) (addr : Word) (size : Nat) (s : State) : BusReply :=
  match target P addr size with
  | none => .readRefused
  | some loc => .readDone (loc.word P s)

/-- The word a transaction returns to the host: a read's word, 0 when the read is refused (R54); a write returns none
(R52). -/
def BusReply.word (r : BusReply) : Option Word :=
  match r with
  | .readDone w => some w
  | .readRefused => some 0
  | .writeDone => none
  | .writeRefused => none

/-- What a write does (R52, R62). -/
inductive WriteEffect where
  /-- A bus error: no change of any state (R54). -/
  | refused
  /-- The write is accepted and leaves this state. -/
  | stored (s : State)
  /-- The write to CMD: this command word is to be decoded and executed (R81). -/
  | command (w : Word)
  deriving DecidableEq, Repr

/-- A write of `v` to a location. Read-only locations refuse it (R54 case d), the length registers refuse a value above
their capacity (R54 case e), and a write to the MK window or to MKLEN invalidates the round keys (R23, R56). -/
def Loc.write (P : Params) (loc : Loc) (v : Word) (s : State) : WriteEffect :=
  match loc with
  | .cmd => .command v
  | .status => .refused
  | .mklen => if v.toNat ≤ P.mkMax then .stored { s.clearKeys with mklen := v } else .refused
  | .ilen => if v.toNat ≤ P.ibufMax then .stored { s with ilen := v } else .refused
  | .olen => .refused
  | .capMk => .refused
  | .capIbuf => .refused
  | .iv k => .stored { s with iv := setWordAt s.iv k v }
  | .blk k => .stored { s with blk := setWordAt s.blk k v }
  | .fo _ => .refused
  | .tag k => .stored { s with tag := setWordAt s.tag k v }
  | .mk k => .stored { s.clearKeys with mkw := s.mkw.writeWord k v }
  | .ibuf k => .stored { s with ibufw := s.ibufw.writeWord k v }
  | .obuf _ => .refused

/-- `MemWrite` (R52). -/
def busWrite (P : Params) (addr : Word) (size : Nat) (v : Word) (s : State) : WriteEffect :=
  match target P addr size with
  | none => .refused
  | some loc => loc.write P v s

end Sys2Proof.Machine
end

