-- ==== Sys2Proof/Machine/Authenticator.lean ====
section
/-! DEFINITION. Family 5, keyed_hash_authenticator: `Tag` (R151), `Verify` (R152), TAGGEN (R153), TAGVFY (R154). -/

namespace Sys2Proof.Machine

/-- The function `Tag` (R151). -/
def tagOf (P : Params) (key data : List Byte) : Digest := P.keyedHash (P.macKeyOf key) data

/-- The function `Verify` (R152): all 32 bytes are equal. -/
def verifyTag (P : Params) (key data : List Byte) (t : Digest) : Bool := tagOf P key data == t

/-- TAGGEN under the parameters `P` (R153). -/
def taggen (P : Params) (s : State) : State :=
  if s.mklen = 0 then s.raise .emptyKey
  else { s with tag := tagOf P s.keyBytes s.ibuf }.succeed

/-- TAGVFY under the parameters `P` (R154). -/
def tagvfy (P : Params) (s : State) : State :=
  if s.mklen = 0 then s.raise .emptyKey
  else if verifyTag P s.keyBytes s.ibuf s.tag then s.succeed
  else s.raise .integrityFailure

/-- TAGGEN (R153). -/
def execTaggen (s : State) : Host.Outcome State Fault Refusal := .next (taggen Config.params s)

/-- TAGVFY (R154). -/
def execTagvfy (s : State) : Host.Outcome State Fault Refusal := .next (tagvfy Config.params s)

end Sys2Proof.Machine
end

