-- ==== Sys2Proof/Machine/RoundFunction.lean ====
section
/-! DEFINITION. Family 2, feistel_round_function: `F` (R111) and FROUND (R112). -/

namespace Sys2Proof.Machine

/-- The function `F` (R111): the first 8 bytes of `HASH(right || round_key)`. -/
def roundF (P : Params) (half : Half) (k : RoundKey) : Half :=
  slice (P.hash (half.toList ++ k.toList)) 0 8

/-- FROUND `r` under the parameters `P` (R112). -/
def fround (P : Params) (r : Fin 16) (s : State) : State :=
  if s.rkv then { s with fo := roundF P s.blkRight s.rk[r] }.succeed
  else s.raiseFault .operandNotReady

/-- FROUND `r` (R112). -/
def execFround (r : Fin 16) (s : State) : Host.Outcome State Fault Refusal := .next (fround Config.params r s)

end Sys2Proof.Machine
end

