-- ==== Sys2Proof/Machine/FeistelCore.lean ====
section
/-! DEFINITION. Family 3, feistel_encrypt_decrypt_core: `EncBlock` (R121), `DecBlock` (R122) and the four block
commands (R124 to R127). -/

namespace Sys2Proof.Machine

/-- The two halves of a block between rounds. -/
structure Halves where
  /-- Left. -/
  l : Half
  /-- Right. -/
  r : Half
  deriving DecidableEq, Repr

/-- Step 1 of R121: split. -/
def split (b : Block) : Halves := ⟨left b, right b⟩

/-- "Output = Left‖Right" (R121 step 4). -/
def unsplit (h : Halves) : Block := join h.l h.r

/-- "if c is not none then L <- L xor c[0..8]" (R121 step 2; R122's last step). -/
def mixChaining (c : Option Chaining) (h : Halves) : Halves :=
  match c with
  | none => h
  | some c => { h with l := xorBytes h.l (slice c 0 8) }

/-- One encryption round with one key: `new_left = R`, `new_right = L xor F(R, k)` (R121 step 3). -/
def encRound (P : Params) (k : RoundKey) (h : Halves) : Halves :=
  ⟨h.r, xorBytes h.l (roundF P h.r k)⟩

/-- One decryption round: `new_left = R xor F(L, k)`, `new_right = L` (R122). -/
def decRound (P : Params) (k : RoundKey) (h : Halves) : Halves :=
  ⟨xorBytes h.r (roundF P h.l k), h.l⟩

/-- The function `EncBlock` (R121): chaining, then sixteen rounds with the keys in rising order. -/
def encBlock (P : Params) (b : Block) (k : RoundKeys) (c : Option Chaining) : Block :=
  unsplit (k.toList.foldl (fun h key => encRound P key h) (mixChaining c (split b)))

/-- The function `DecBlock` (R122): sixteen rounds with the keys from `k[15]` down to `k[0]`, then chaining. -/
def decBlock (P : Params) (b : Block) (k : RoundKeys) (c : Option Chaining) : Block :=
  unsplit (mixChaining c (k.toList.foldr (fun key h => decRound P key h) (split b)))

/-- What the four block commands share: OperandNotReady when `RKV = 0`, else BLK takes the result (R124 to R127). -/
def blockCommand (f : State → Block) (s : State) : State :=
  if s.rkv then { s with blk := f s }.succeed else s.raiseFault .operandNotReady

/-- ENCBLK under the parameters `P` (R124). -/
def encblk (P : Params) (s : State) : State := blockCommand (fun s => encBlock P s.blk s.rk none) s

/-- ENCBLKC under the parameters `P` (R125). -/
def encblkc (P : Params) (s : State) : State := blockCommand (fun s => encBlock P s.blk s.rk (some s.iv)) s

/-- DECBLK under the parameters `P` (R126). -/
def decblk (P : Params) (s : State) : State := blockCommand (fun s => decBlock P s.blk s.rk none) s

/-- DECBLKC under the parameters `P` (R127). -/
def decblkc (P : Params) (s : State) : State := blockCommand (fun s => decBlock P s.blk s.rk (some s.iv)) s

/-- ENCBLK (R124). -/
def execEncblk (s : State) : Host.Outcome State Fault Refusal := .next (encblk Config.params s)

/-- ENCBLKC (R125). -/
def execEncblkc (s : State) : Host.Outcome State Fault Refusal := .next (encblkc Config.params s)

/-- DECBLK (R126). -/
def execDecblk (s : State) : Host.Outcome State Fault Refusal := .next (decblk Config.params s)

/-- DECBLKC (R127). -/
def execDecblkc (s : State) : Host.Outcome State Fault Refusal := .next (decblkc Config.params s)

end Sys2Proof.Machine
end

