-- ==== Sys2Proof/Machine/KeySchedule.lean ====
section
/-! DEFINITION. Family 1, hash_chain_key_schedule: `Derive` (R101) and KSDERIVE (R102). -/

namespace Sys2Proof.Machine

/-- `k[0] <- HASH(K)`, `k[i] <- HASH(k[i-1])` (R101). -/
def chainKey (P : Params) (key : List Byte) (i : Nat) : RoundKey :=
  match i with
  | 0 => P.hash key
  | j + 1 => P.hash (chainKey P key j).toList

/-- The sixteen keys `k[0..16]` of a key's chain (R101). -/
def keyChain (P : Params) (key : List Byte) : RoundKeys := Vector.ofFn fun i => chainKey P key i.val

/-- The function `Derive` (R101): EmptyKey on the empty key, else the chain. -/
def deriveKeys (P : Params) (key : List Byte) : Except Error RoundKeys :=
  if key.length = 0 then .error .emptyKey else .ok (keyChain P key)

/-- KSDERIVE under the parameters `P` (R102). -/
def ksderive (P : Params) (s : State) : State :=
  match deriveKeys P s.keyBytes with
  | .error e => s.clearKeys.raise e
  | .ok d => { s with rk := d, rkv := true }.succeed

/-- KSDERIVE (R102). -/
def execKsderive (s : State) : Host.Outcome State Fault Refusal := .next (ksderive Config.params s)

end Sys2Proof.Machine
end

