-- ==== Sys2Proof/Machine/Padder.lean ====
section
/-! DEFINITION. Family 4, pkcs7_padder: `Pad` (R141), `Unpad` (R142), PAD (R143), UNPAD (R144). -/

namespace Sys2Proof.Machine

/-- `p = 16 - (len mod 16)`, from 1 to 16 (R141, R146). -/
def padLength (n : Nat) : Nat := 16 - n % 16

/-- The function `Pad` (R141): `p` bytes of value `p` appended. -/
def padBytes (d : List Byte) : List Byte :=
  d ++ List.replicate (padLength d.length) (BitVec.ofNat 8 (padLength d.length))

/-- The function `Unpad` (R142), its four tests in R142's order. -/
def unpadBytes (e : List Byte) : Except Error (List Byte) :=
  match e.getLast? with
  | none => .error .invalidPadding
  | some b =>
    if b.toNat = 0 ∨ b.toNat > 16 then .error .invalidPadding
    else if b.toNat > e.length then .error .invalidPadding
    else if e.drop (e.length - b.toNat) ≠ List.replicate b.toNat b then .error .invalidPadding
    else .ok (e.take (e.length - b.toNat))

/-- PAD (R143). -/
def execPad (s : State) : Host.Outcome State Fault Refusal := .next ((s.setOut (padBytes s.ibuf)).succeed)

/-- UNPAD (R144). -/
def execUnpad (s : State) : Host.Outcome State Fault Refusal := .next (s.deliver (unpadBytes s.ibuf))

end Sys2Proof.Machine
end

