-- ==== Sys2Proof/Machine/BlockProcessor.lean ====
section
/-! DEFINITION. Family 6, cipher_block_processor: `EncryptWithIV` (R161), `Decrypt` (R164), ENCRYPT (R162), DECRYPT
(R165). -/

namespace Sys2Proof.Machine

/-- Block `i` of a sequence, bytes `16i .. 16i+16` (R63). -/
def blockAt (q : List Byte) (i : Nat) : Block := ofBytes 16 (q.drop (16 * i))

/-- The chaining argument of block `i`: the chaining value for block 0 and none for the others (R161, R164). -/
def chainingFor (iv : Chaining) (i : Nat) : Option Chaining := if i = 0 then some iv else none

/-- `C[0] || C[1] || ... || C[m-1]` of R161. -/
def encBlocks (P : Params) (k : RoundKeys) (iv : Chaining) (q : List Byte) : List Byte :=
  (List.range (q.length / 16)).flatMap fun i => (encBlock P (blockAt q i) k (chainingFor iv i)).toList

/-- `D[0] || ... || D[m-1]` of R164, the empty sequence when `m = 0`. -/
def decBlocks (P : Params) (k : RoundKeys) (iv : Chaining) (q : List Byte) : List Byte :=
  (List.range (q.length / 16)).flatMap fun i => (decBlock P (blockAt q i) k (chainingFor iv i)).toList

/-- `A = iv || C[0] || ... || C[m-1]` of R161, for a non-empty key. -/
def sealedBody (P : Params) (key plain : List Byte) (iv : Chaining) : List Byte :=
  iv.toList ++ encBlocks P (keyChain P key) iv (padBytes plain)

/-- The function `EncryptWithIV` (R161). -/
def encryptWithIV (P : Params) (key plain : List Byte) (iv : Chaining) : Except Error (List Byte) :=
  if key.length = 0 then .error .emptyKey
  else .ok (sealedBody P key plain iv ++ (tagOf P key (sealedBody P key plain iv)).toList)

/-- `iv = C[0 .. 16]` (R163). -/
def parsedIv (c : List Byte) : Chaining := ofBytes 16 c

/-- `C[0 .. n-32]`, the bytes the tag covers (R164 test 4). -/
def parsedAuth (c : List Byte) : List Byte := c.take (c.length - 32)

/-- `body = C[16 .. n-32]` (R163). -/
def parsedBody (c : List Byte) : List Byte := (parsedAuth c).drop 16

/-- `t = C[n-32 .. n]` (R163). -/
def parsedTag (c : List Byte) : Digest := ofBytes 32 (c.drop (c.length - 32))

/-- The function `Decrypt` (R164), its five tests in R164's order. -/
def decryptMessage (P : Params) (key c : List Byte) : Except Error (List Byte) :=
  if key.length = 0 then .error .emptyKey
  else if c.length < 48 then .error .truncatedInput
  else if (c.length - 48) % 16 ≠ 0 then .error .truncatedInput
  else if verifyTag P key (parsedAuth c) (parsedTag c) then
    unpadBytes (decBlocks P (keyChain P key) (parsedIv c) (parsedBody c))
  else .error .integrityFailure

/-- ENCRYPT under the parameters `P` (R162): the draw is taken and the scrub run on every ending. -/
def encrypt (P : Params) (s : State) : State :=
  s.sampled.scrub.deliver (encryptWithIV P s.keyBytes s.ibuf (s.ivDraw P))

/-- DECRYPT under the parameters `P` (R165): the scrub is run on every ending. -/
def decrypt (P : Params) (s : State) : State :=
  s.scrub.deliver (decryptMessage P s.keyBytes s.ibuf)

/-- ENCRYPT (R162). -/
def execEncrypt (s : State) : Host.Outcome State Fault Refusal := .next (encrypt Config.params s)

/-- DECRYPT (R165). -/
def execDecrypt (s : State) : Host.Outcome State Fault Refusal := .next (decrypt Config.params s)

end Sys2Proof.Machine
end

