-- ==== Sys2Proof/Machine/Housekeeping.lean ====
section
/-! DEFINITION. Family 7, zeroisation: ZEROIZE (R182). The scrub itself is `State.scrub` (R181). -/

namespace Sys2Proof.Machine

/-- ZEROIZE (R182): the scrub, the four operand registers zero, `SetOut([])`, success. -/
def zeroize (s : State) : State :=
  ({ s.scrub with iv := zeroBytes 16, blk := zeroBytes 16, fo := zeroBytes 8, tag := zeroBytes 32 }.setOut []).succeed

/-- ZEROIZE (R182). -/
def execZeroize (s : State) : Host.Outcome State Fault Refusal := .next (zeroize s)

end Sys2Proof.Machine
end

