-- ==== Sys2Proof/Machine/Dispatch.lean ====
section
/-! DEFINITION. One arm per command of R84. -/

namespace Sys2Proof.Machine

def exec (i : Instr) (s : State) : Host.Outcome State Fault Refusal :=
  match i with
  | .ksderive => Sys2Proof.Machine.execKsderive s
  | .fround r => Sys2Proof.Machine.execFround r s
  | .encblk => Sys2Proof.Machine.execEncblk s
  | .encblkc => Sys2Proof.Machine.execEncblkc s
  | .decblk => Sys2Proof.Machine.execDecblk s
  | .decblkc => Sys2Proof.Machine.execDecblkc s
  | .pad => Sys2Proof.Machine.execPad s
  | .unpad => Sys2Proof.Machine.execUnpad s
  | .taggen => Sys2Proof.Machine.execTaggen s
  | .tagvfy => Sys2Proof.Machine.execTagvfy s
  | .encrypt => Sys2Proof.Machine.execEncrypt s
  | .decrypt => Sys2Proof.Machine.execDecrypt s
  | .zeroize => Sys2Proof.Machine.execZeroize s

end Sys2Proof.Machine
end

