-- ==== Sys2Proof/Machine/Step.lean ====
section
/-! DEFINITION. One step of the core: it takes the host's next move and completes it (R11, R52, R81). -/

namespace Sys2Proof.Machine

/-- The data of an accepted CMD write: decoded, then the command executed to its end, or IllegalCommand (R81, R85). -/
def runCommand (w : Word) (s : State) : Host.Outcome State Fault Refusal :=
  match decode w with
  | .command i => exec i s
  | .reserved _ => .next (s.raiseFault .illegalCommand)

/-- One host move. "The core executes nothing of its own accord" (R221): with no move waiting, nothing changes. -/
def step (s : State) : Host.Outcome State Fault Refusal :=
  match s.host with
  | [] => .next s
  | .reset :: rest => .next (s.resetCore rest)
  | .read addr size :: rest => .next (s.answer rest (busRead Config.params addr size s))
  | .write addr size v :: rest =>
    match busWrite Config.params addr size v s with
    | .refused => .next (s.answer rest .writeRefused)
    | .stored t => .next (t.answer rest .writeDone)
    | .command w => runCommand w (s.answer rest .writeDone)

/-- The state in which the host's next move is the write of this command word to CMD (R81, log 4). -/
def State.withFetchWord (s : State) (nbits w : Nat) : State :=
  { s with host := .write 0 4 (BitVec.ofNat 32 (w % 2 ^ nbits)) :: s.host }

end Sys2Proof.Machine
end

