-- ==== Sys2Proof/Machine/Script.lean ====
section
/-! DEFINITION. Host-script notation (R90 to R92): the primitive statements and the pseudo-instructions as lists of host
moves. Nothing of the machine depends on this file. -/

namespace Sys2Proof.Machine

/-- `WR addr, word` (R90). -/
def wr (addr : Nat) (w : Word) : HostMove := .write (zext32 addr) 4 w

/-- `RD addr` (R90). -/
def rd (addr : Nat) : HostMove := .read (zext32 addr) 4

/-- A mnemonic as a statement: the command's word written to CMD (R90). -/
def issue (i : Instr) : HostMove := wr 0 (encode i)

/-- `ceil(n / 4)`, the number of words that hold `n` bytes (R91). -/
def wordCount (n : Nat) : Nat := (n + 3) / 4

/-- Word `k` of `words(bytes)`, "the missing high bytes of the last word being 0" (R91). -/
def packedWord (l : List Byte) (k : Nat) : Word :=
  wordOf (l.getD (4 * k) 0) (l.getD (4 * k + 1) 0) (l.getD (4 * k + 2) 0) (l.getD (4 * k + 3) 0)

/-- `WR base + 4k, words(bytes)[k]` for each `k` in order (R91). -/
def wrBytes (base : Nat) (l : List Byte) : List HostMove :=
  (List.range (wordCount l.length)).map fun k => wr (base + 4 * k) (packedWord l k)

/-- `RD base + 4k` for `k` from 0 to `n - 1` (R91). -/
def rdWords (base n : Nat) : List HostMove := (List.range n).map fun k => rd (base + 4 * k)

/-- `LDKEY bytes` (R91). -/
def ldkey (l : List Byte) : List HostMove := wr 0x08 (zext32 l.length) :: wrBytes mkBase l

/-- `LDIN bytes` (R91). -/
def ldin (l : List Byte) : List HostMove := wr 0x0C (zext32 l.length) :: wrBytes ibufBase l

/-- `LDIV bytes` (R91). -/
def ldiv (v : Bytes 16) : List HostMove := wrBytes 0x20 v.toList

/-- `LDBLK bytes` (R91). -/
def ldblk (v : Bytes 16) : List HostMove := wrBytes 0x30 v.toList

/-- `LDTAG bytes` (R91). -/
def ldtag (v : Bytes 32) : List HostMove := wrBytes 0x60 v.toList

/-- `RDOUT` for an output of `n` bytes (R91): the host reads OLEN, finds `n`, and reads `ceil(n / 4)` words. -/
def rdout (n : Nat) : List HostMove := rd 0x10 :: rdWords obufBase (wordCount n)

/-- `RDBLK` (R91). -/
def rdblk : List HostMove := rdWords 0x30 4

/-- `RDFO` (R91). -/
def rdfo : List HostMove := rdWords 0x40 2

/-- `RDTAG` (R91). -/
def rdtag : List HostMove := rdWords 0x60 8

/-- `RDERR`: `RD STATUS` (R91). -/
def rderr : List HostMove := [rd 0x04]

/-- The result of `RDERR`, `word[3:0]` (R91). -/
def errOfStatus (w : Word) : BitVec 4 := w.extractLsb' 0 4

/-- `MOVOUT` when the output bytes read are `l` (R91). -/
def movout (l : List Byte) : List HostMove := rdout l.length ++ ldin l

/-- The bytes of a list of words, unpacked by R55. -/
def unpackWords (ws : List Word) : List Byte := ws.flatMap fun w => [byteOf w 0, byteOf w 1, byteOf w 2, byteOf w 3]

/-- `encrypt(master_key, plaintext)` as a host script, up to the read-out of an output of `n` bytes (R92). -/
def encryptScript (key plain : List Byte) (n : Nat) : List HostMove :=
  ldkey key ++ ldin plain ++ [issue .encrypt] ++ rderr ++ rdout n

/-- `decrypt(master_key, ciphertext)` as a host script, up to the read-out of an output of `n` bytes (R92). -/
def decryptScript (key cipher : List Byte) (n : Nat) : List HostMove :=
  ldkey key ++ ldin cipher ++ [issue .decrypt] ++ rderr ++ rdout n

end Sys2Proof.Machine
end

