-- ==== Sys2Proof/WellFormed.lean ====
section
/-! DEFINITION. What is well formed: a command word (R80, R83, R85), and the open capacities (R10). A term of `Instr`
needs no check of its own: R82's bound on `r` is in its type, and every other command has no operand. -/

namespace Sys2Proof

/-- R80 and R85 as a check on the word's number, written apart from the decoder: bits 31:12 are 0, and either the
opcode is FROUND's (any index) or bits 11:8 are 0 and the opcode is one of 0x01 to 0x0D. -/
def commandWordOk (w : Word) : Bool :=
  w.toNat / 4096 == 0 &&
    (w.toNat % 256 == 2 || (w.toNat / 256 % 16 == 0 && 1 ≤ w.toNat % 256 && w.toNat % 256 ≤ 13))

/-- R10's constraints on MK_MAX. -/
def Params.mkMaxOk (P : Params) : Bool :=
  P.mkMax % 4 == 0 && 4 ≤ P.mkMax && P.mkMax ≤ 65536

/-- R10's constraints on IBUF_MAX. -/
def Params.ibufMaxOk (P : Params) : Bool :=
  P.ibufMax % 4 == 0 && 64 ≤ P.ibufMax && P.ibufMax ≤ 0x0FFFFFC0

/-- The parameters satisfy R10. -/
def Params.wellFormed (P : Params) : Bool := P.mkMaxOk && P.ibufMaxOk

end Sys2Proof
end

