-- ==== Sys2Proof/Safety.lean ====
section
/-! DEFINITION. What claims are made of: the invariants of R36, and the run of a list of host moves. -/

namespace Sys2Proof.Machine

/-- A buffer in canonical form with no listed byte at or above its capacity (R22, R28, R29: "an array of MK_MAX bytes"
and the like). -/
def Memory.Within (m : Memory) (cap : Nat) : Prop := m.wf ∧ ∀ c ∈ m, c.1 < cap

/-- The invariants of R36, with the buffers' form. R36 (e) is the type of ERR. -/
structure State.Inv (P : Params) (s : State) : Prop where
  /-- R36 (a). -/
  mklen_le : s.mklen.toNat ≤ P.mkMax
  /-- R36 (a). -/
  ilen_le : s.ilen.toNat ≤ P.ibufMax
  /-- R36 (a). -/
  olen_le : s.olen.toNat ≤ P.obufMax
  /-- R36 (b). -/
  obuf_zero : ∀ i, s.olen.toNat ≤ i → s.obufw.read i = 0
  /-- R36 (c). -/
  keys_valid : s.rkv = true → 0 < s.mklen.toNat ∧ deriveKeys P s.keyBytes = .ok s.rk
  /-- R36 (d). -/
  keys_zero : s.rkv = false → s.rk = zeroKeys
  /-- R22. -/
  mkw_within : s.mkw.Within P.mkMax
  /-- R28. -/
  ibufw_within : s.ibufw.Within P.ibufMax
  /-- R29. -/
  obufw_within : s.obufw.Within P.obufMax

/-- The host issues the moves `ms`, and the core completes them one by one (R52, R64). -/
def runMoves (ms : List HostMove) (s : State) : Host.Outcome State Fault Refusal :=
  Host.Core.run Sys2Proof.core ms.length { s with host := ms }

end Sys2Proof.Machine
end

