-- ==== Sys2Proof/Certificates/Slice0/Obligations.lean ====
section
/-! DEFINITION. The statements for the provers. A state of State is any state, reachable or not, unless a premise says
otherwise; `State.Inv` is the invariant of R36, whose preservation is a statement of its own. A frame is written as an
equality `t = { s with ... }`, which fixes every field it does not name. -/

open Sys2Proof Sys2Proof.Machine

/-! ## Reset, decoding, stepping -/

/-- R37: after reset every piece of state is zero. -/
def Obligations.ResetStateIsAllZero : Prop :=
  (∀ a, State.reset.mkw.read a = 0) ∧ State.reset.mklen = 0 ∧
  (∀ i (hi : i < 16) j (hj : j < 32), State.reset.rk[i][j] = 0) ∧ State.reset.rkv = false ∧
  (∀ j (hj : j < 16), State.reset.iv[j] = 0) ∧ (∀ j (hj : j < 16), State.reset.blk[j] = 0) ∧
  (∀ j (hj : j < 8), State.reset.fo[j] = 0) ∧ (∀ j (hj : j < 32), State.reset.tag[j] = 0) ∧
  (∀ a, State.reset.ibufw.read a = 0) ∧ State.reset.ilen = 0 ∧
  (∀ a, State.reset.obufw.read a = 0) ∧ State.reset.olen = 0 ∧ State.reset.err.code = 0

/-- R84: the table's words, FROUND with a middle and the last index, decode to their commands. -/
def Obligations.TableWordsDecode : Prop :=
  decode 0x00000001 = .command .ksderive ∧ decode 0x00000702 = .command (.fround 7) ∧
  decode 0x00000F02 = .command (.fround 15) ∧ decode 0x00000003 = .command .encblk ∧
  decode 0x00000004 = .command .encblkc ∧ decode 0x00000005 = .command .decblk ∧
  decode 0x00000006 = .command .decblkc ∧ decode 0x00000007 = .command .pad ∧
  decode 0x00000008 = .command .unpad ∧ decode 0x00000009 = .command .taggen ∧
  decode 0x0000000A = .command .tagvfy ∧ decode 0x0000000B = .command .encrypt ∧
  decode 0x0000000C = .command .decrypt ∧ decode 0x0000000D = .command .zeroize

/-- R80, R83, R84: a word decodes to a command exactly when it is that command's word. -/
def Obligations.DecodeExactlyInvertsEncode : Prop :=
  ∀ (w : Word) (i : Instr), decode w = .command i ↔ w = encode i

/-- R83: the whole decoding, on the word's number. -/
def Obligations.DecodingFollowsFieldTests : Prop :=
  ∀ w : Word,
    (w.toNat / 4096 ≠ 0 → ∃ why, decode w = .reserved why) ∧
    (w.toNat / 4096 = 0 → w.toNat % 256 = 2 →
      ∃ r : Fin 16, decode w = .command (.fround r) ∧ r.val = w.toNat / 256 % 16) ∧
    (w.toNat / 4096 = 0 → w.toNat % 256 ≠ 2 → w.toNat / 256 % 16 ≠ 0 → ∃ why, decode w = .reserved why) ∧
    (w.toNat / 4096 = 0 → w.toNat % 256 ≠ 2 → w.toNat / 256 % 16 = 0 →
      ((w.toNat % 256 = 0 ∨ 14 ≤ w.toNat % 256) → ∃ why, decode w = .reserved why) ∧
      ∀ op i, (op, i) ∈ [(1, Instr.ksderive), (3, .encblk), (4, .encblkc), (5, .decblk), (6, .decblkc), (7, .pad),
        (8, .unpad), (9, .taggen), (10, .tagvfy), (11, .encrypt), (12, .decrypt), (13, .zeroize)] →
        w.toNat % 256 = op → decode w = .command i)

/-- R81: when the host's next move writes a command's word to CMD, the step is that command's execution, in the state in
which the move is taken and the bus answers that the write is done; `withFetchWord` places such a move. -/
def Obligations.StepExecutesDecodedCommand : Prop :=
  (∀ (s : State) (w : Word) (rest : List HostMove) (i : Instr),
    s.host = .write 0 4 w :: rest → decode w = .command i →
      step s = exec i { s with host := rest, reply := some .writeDone }) ∧
  (∀ (s : State) (w : Word) (i : Instr), decode w = .command i →
      step (s.withFetchWord 32 w.toNat) = exec i { s with reply := some .writeDone })

/-- R85, R192: a reserved word ends with IllegalCommand, ERR = 5, and changes nothing else of the core (the list of moves and
the reply are the model's own, logs 4 and 5). -/
def Obligations.ReservedWordEndsIllegalCommand : Prop :=
  (∀ (s : State) (w : Word) (rest : List HostMove) (why : Reserved),
    s.host = .write 0 4 w :: rest → decode w = .reserved why →
      step s = .next { s with host := rest, reply := some .writeDone, err := .fault .illegalCommand }) ∧
  (Ending.fault .illegalCommand).code = 5

/-- R221 and log 4: with no host move waiting the core does nothing. -/
def Obligations.IdleCoreChangesNothing : Prop :=
  ∀ s : State, s.host = [] → step s = .next s

/-- R220: the reset input puts every piece of R20's state at its reset value, whatever the state (what lies outside the
core, the waiting moves and the entropy source, stays: logs 2, 4 and 5). -/
def Obligations.ResetMoveRestoresResetState : Prop :=
  ∀ (s : State) (rest : List HostMove), s.host = .reset :: rest →
    step s = .next { State.reset with draws := s.draws, host := rest }

/-- R202: every command terminates: every command, from every state, has a next state, and so has every reserved word (R85).
That a refused transaction (R54) and an idle core also take a step with a next state is the model's choice (logs 6 and 4). -/
def Obligations.EveryStepHasNextState : Prop :=
  (∀ s : State, ∃ t, step s = .next t) ∧ (∀ (i : Instr) (s : State), ∃ t, exec i s = .next t)

/-- R36: the invariants hold after every bus transaction and every command when they hold before. -/
def Obligations.EveryStepKeepsInvariant : Prop :=
  ∀ s t : State, s.Inv Config.params → step s = .next t → t.Inv Config.params ∧ t.err.code.toNat ≤ 6

/-- R36: the invariants hold after reset. -/
def Obligations.ResetMeetsInvariant : Prop :=
  State.reset.Inv Config.params ∧ State.reset.err.code.toNat ≤ 6

/-! ## Whole-machine frames -/

/-- R38: "Whatever a row does not list, the command leaves unchanged", for all thirteen commands at once; and no command
touches the host's moves or the bus reply. -/
def Obligations.CommandsWriteOnlyTheirColumns : Prop :=
  ∀ (i : Instr) (s t : State), exec i s = .next t →
    (i ∉ [Instr.ksderive, .encrypt, .decrypt, .zeroize] → t.rk = s.rk ∧ t.rkv = s.rkv) ∧
    ((∀ r, i ≠ .fround r) → i ≠ .zeroize → t.fo = s.fo) ∧
    (i ∉ [Instr.encblk, .encblkc, .decblk, .decblkc, .zeroize] → t.blk = s.blk) ∧
    (i ∉ [Instr.taggen, .zeroize] → t.tag = s.tag) ∧
    (i ≠ .zeroize → t.iv = s.iv) ∧
    (i ∉ [Instr.pad, .unpad, .encrypt, .decrypt, .zeroize] → t.obufw = s.obufw ∧ t.olen = s.olen) ∧
    (i ∉ [Instr.encrypt, .decrypt, .zeroize] →
      t.mkw = s.mkw ∧ t.mklen = s.mklen ∧ t.ibufw = s.ibufw ∧ t.ilen = s.ilen) ∧
    t.host = s.host ∧ t.reply = s.reply

/-- R191, R194: the endings each command can have. -/
def Obligations.EndingsOfEachCommand : Prop :=
  ∀ (i : Instr) (s t : State), exec i s = .next t →
    t.err ∈ (match i with
      | .ksderive | .taggen | .encrypt => [Ending.success, .error .emptyKey]
      | .fround _ | .encblk | .encblkc | .decblk | .decblkc => [Ending.success, .fault .operandNotReady]
      | .pad | .zeroize => [Ending.success]
      | .unpad => [Ending.success, .error .invalidPadding]
      | .tagvfy => [Ending.success, .error .emptyKey, .error .integrityFailure]
      | .decrypt =>
        [Ending.success, .error .emptyKey, .error .truncatedInput, .error .integrityFailure, .error .invalidPadding])

/-- R35: the entropy input is sampled exactly once per ENCRYPT and at no other time (`draws` is the model's own count of the
samples, log 2). -/
def Obligations.OnlyEncryptSamplesEntropy : Prop :=
  ∀ (i : Instr) (s t : State), exec i s = .next t → t.draws = if i = .encrypt then s.draws + 1 else s.draws

/-- R22, R28: bytes of MKW at index MKLEN and above, and of IBUFW at ILEN and above, take no part: every command leaves the
same state but for those two buffers. -/
def Obligations.BytesPastTheLengthsTakeNoPart : Prop :=
  ∀ (i : Instr) (s t : State) (m m' : Memory), exec i s = .next t →
    (∀ a, a < s.mklen.toNat → m.read a = s.mkw.read a) → (∀ a, a < s.ilen.toNat → m'.read a = s.ibufw.read a) →
    ∃ t', exec i { s with mkw := m, ibufw := m' } = .next t' ∧ t' = { t with mkw := t'.mkw, ibufw := t'.ibufw }

/-! ## Family 1, key schedule -/

/-- R101: `Derive` fails with EmptyKey on the empty key; else the first round key is the hash of the key and each later one
the hash of the one before. -/
def Obligations.DeriveIsIteratedHash : Prop :=
  ∀ (P : Params) (key : List Byte),
    (key = [] → deriveKeys P key = .error .emptyKey) ∧
    (key ≠ [] → ∃ k : RoundKeys, deriveKeys P key = .ok k ∧ k[0] = P.hash key ∧
      ∀ i (h : i + 1 < 16), k[i + 1] = P.hash k[i].toList)

/-- R102: KSDERIVE, both endings: on a non-empty key RK becomes `Derive(MK)` and `RKV = 1`; on the empty key RK is zeroed,
`RKV = 0` and ERR is EmptyKey; nothing else changes. -/
def Obligations.KsderiveWritesRoundKeys : Prop :=
  ∀ s : State,
    (s.mklen ≠ 0 → ∃ k, deriveKeys Config.params s.keyBytes = .ok k ∧
      exec .ksderive s = .next { s with rk := k, rkv := true, err := .success }) ∧
    (s.mklen = 0 → exec .ksderive s =
      .next { s with rk := Vector.replicate 16 (Vector.replicate 32 0), rkv := false, err := .error .emptyKey })

/-! ## Family 2, round function -/

/-- R111, R112: FROUND with valid round keys writes to FO the first 8 bytes of the hash of BLK's Right half followed by
`RK[r]`, sets ERR to 0, and changes nothing else; without them it ends with OperandNotReady and changes ERR only. -/
def Obligations.FroundWritesTruncatedHash : Prop :=
  ∀ (r : Fin 16) (s : State),
    (s.rkv = true → ∃ t, exec (.fround r) s = .next t ∧ t = { s with fo := t.fo, err := .success } ∧
      ∀ j (hj : j < 8), t.fo[j] = (Config.hash (s.blk.toList.drop 8 ++ s.rk[r].toList))[j]) ∧
    (s.rkv = false → exec (.fround r) s = .next { s with err := .fault .operandNotReady })

/-! ## Family 3, block encryption and decryption -/

/-- R124, R125: with valid round keys ENCBLK and ENCBLKC replace BLK by `EncBlock` without and with IV, set ERR to 0 and
change nothing else; without them they end with OperandNotReady and change ERR only. -/
def Obligations.EncryptBlockCommandsReplaceBlk : Prop :=
  ∀ s : State,
    (s.rkv = true →
      exec .encblk s = .next { s with blk := encBlock Config.params s.blk s.rk none, err := .success } ∧
      exec .encblkc s = .next { s with blk := encBlock Config.params s.blk s.rk (some s.iv), err := .success }) ∧
    (s.rkv = false →
      exec .encblk s = .next { s with err := .fault .operandNotReady } ∧
      exec .encblkc s = .next { s with err := .fault .operandNotReady })

/-- R126, R127: the same for DECBLK and DECBLKC with `DecBlock`. -/
def Obligations.DecryptBlockCommandsReplaceBlk : Prop :=
  ∀ s : State,
    (s.rkv = true →
      exec .decblk s = .next { s with blk := decBlock Config.params s.blk s.rk none, err := .success } ∧
      exec .decblkc s = .next { s with blk := decBlock Config.params s.blk s.rk (some s.iv), err := .success }) ∧
    (s.rkv = false →
      exec .decblk s = .next { s with err := .fault .operandNotReady } ∧
      exec .decblkc s = .next { s with err := .fault .operandNotReady })

/-- R121, R129: the seventeen states of an encryption. -/
def Obligations.EncBlockClosedForm : Prop :=
  ∀ (P : Params) (b : Block) (k : RoundKeys) (cv : Option Chaining), ∃ l r : Nat → Half,
    (∀ j (hj : j < 8), (l 0)[j] = match cv with | none => b[j] | some v => b[j] ^^^ v[j]) ∧
    (∀ j (hj : j < 8), (r 0)[j] = b[8 + j]) ∧
    (∀ i (hi : i < 16), l (i + 1) = r i ∧
      ∀ j (hj : j < 8), (r (i + 1))[j] = (l i)[j] ^^^ (P.hash ((r i).toList ++ k[i].toList))[j]) ∧
    (encBlock P b k cv).toList = (l 16).toList ++ (r 16).toList

/-- R122: the seventeen states of a decryption, with the keys in reverse order and the chaining value XORed into Left
after the rounds. -/
def Obligations.DecBlockClosedForm : Prop :=
  ∀ (P : Params) (b : Block) (k : RoundKeys) (cv : Option Chaining), ∃ l r : Nat → Half,
    (∀ j (hj : j < 8), (l 16)[j] = b[j]) ∧ (∀ j (hj : j < 8), (r 16)[j] = b[8 + j]) ∧
    (∀ i (hi : i < 16), r i = l (i + 1) ∧
      ∀ j (hj : j < 8), (l i)[j] = (r (i + 1))[j] ^^^ (P.hash ((l (i + 1)).toList ++ k[i].toList))[j]) ∧
    (∀ j (hj : j < 8), (decBlock P b k cv)[j] = match cv with | none => (l 0)[j] | some v => (l 0)[j] ^^^ v[j]) ∧
    (∀ j (hj : j < 8), (decBlock P b k cv)[8 + j] = (r 0)[j])

/-- R128: decryption inverts encryption and encryption inverts decryption, for any hash, any sixteen keys, and any chaining
argument. -/
def Obligations.BlockDecryptionInvertsEncryption : Prop :=
  ∀ (P : Params) (b : Block) (k : RoundKeys) (cv : Option Chaining),
    decBlock P (encBlock P b k cv) k cv = b ∧ encBlock P (decBlock P b k cv) k cv = b

/-- R123: bytes 8 to 15 of the chaining value have no effect on either function. -/
def Obligations.ChainingSecondHalfUnused : Prop :=
  ∀ (P : Params) (b : Block) (k : RoundKeys) (cv dv : Chaining), (∀ j (hj : j < 8), cv[j] = dv[j]) →
    encBlock P b k (some cv) = encBlock P b k (some dv) ∧ decBlock P b k (some cv) = decBlock P b k (some dv)

/-- R131: the chaining value is an exclusive or into the Left half before the rounds, and decryption without it leaves it
in. -/
def Obligations.ChainingIsXorIntoLeft : Prop :=
  ∀ (P : Params) (b : Block) (k : RoundKeys) (cv : Chaining), ∃ b' : Block,
    (∀ j (hj : j < 8), b'[j] = b[j] ^^^ cv[j]) ∧ (∀ j (hj : j < 8), b'[8 + j] = b[8 + j]) ∧
    decBlock P (encBlock P b k (some cv)) k none = b' ∧ encBlock P b k (some cv) = encBlock P b' k none

/-- R128 on the machine: DECBLK after ENCBLK, ENCBLK after DECBLK, and the same with the chaining value, restore the state
(ERR is 0). -/
def Obligations.BlockCommandsUndoEachOther : Prop :=
  ∀ (i j : Instr) (s : State), s.rkv = true →
    (i, j) ∈ [(Instr.encblk, Instr.decblk), (.decblk, .encblk), (.encblkc, .decblkc), (.decblkc, .encblkc)] →
    ∃ t, exec i s = .next t ∧ exec j t = .next { s with err := .success }

/-! ## Family 4, padding -/

/-- R141: `Pad` appends `p` bytes of value `p`, `p = 16 - (len mod 16)`. -/
def Obligations.PadAppendsPadLength : Prop :=
  ∀ d : List Byte, ∃ p, p = 16 - d.length % 16 ∧ 1 ≤ p ∧ p ≤ 16 ∧
    padBytes d = d ++ List.replicate p (BitVec.ofNat 8 p) ∧ (padBytes d).length = 16 * (d.length / 16 + 1)

/-- R142: `Unpad` succeeds with `u` exactly when the input is `u` followed by `p` bytes of value `p` for some `p` from 1 to
16, and its only failure is InvalidPadding. -/
def Obligations.UnpadAcceptsExactlyPaddedInputs : Prop :=
  (∀ e u : List Byte, unpadBytes e = .ok u ↔
    ∃ p, 1 ≤ p ∧ p ≤ 16 ∧ e = u ++ List.replicate p (BitVec.ofNat 8 p)) ∧
  (∀ (e : List Byte) (x : Error), unpadBytes e = .error x → x = .invalidPadding)

/-- R145: the laws of padding. -/
def Obligations.PaddingLaws : Prop :=
  (∀ d : List Byte, (padBytes d).length > d.length ∧ (padBytes d).length % 16 = 0 ∧ (padBytes d).length ≥ 16 ∧
    unpadBytes (padBytes d) = .ok d) ∧
  (∀ e u : List Byte, unpadBytes e = .ok u → e.length % 16 = 0 → padBytes u = e) ∧
  (∃ e u : List Byte, unpadBytes e = .ok u ∧ padBytes u ≠ e)

/-- R143: PAD always succeeds: OBUFW holds `Pad(IBUF)` and zeros, OLEN its length (on every input within R36 a, the
capacity), nothing else changes. -/
def Obligations.PadWritesPaddedInput : Prop :=
  ∀ s : State, ∃ t, exec .pad s = .next t ∧
    t = { s with obufw := t.obufw, olen := t.olen, err := .success } ∧
    (∀ a, t.obufw.read a = (padBytes s.ibuf).getD a 0) ∧
    (s.ilen.toNat ≤ Config.params.ibufMax → t.obuf = padBytes s.ibuf ∧ t.olen.toNat = (padBytes s.ibuf).length)

/-- R144: UNPAD, both endings. -/
def Obligations.UnpadWritesUnpaddedInput : Prop :=
  ∀ s : State,
    (∀ u, unpadBytes s.ibuf = .ok u → ∃ t, exec .unpad s = .next t ∧
      t = { s with obufw := t.obufw, olen := t.olen, err := .success } ∧
      (∀ a, t.obufw.read a = u.getD a 0) ∧ t.obuf = u ∧ t.olen.toNat = u.length) ∧
    (unpadBytes s.ibuf = .error .invalidPadding → ∃ t, exec .unpad s = .next t ∧
      t = { s with obufw := t.obufw, olen := 0, err := .error .invalidPadding } ∧ ∀ a, t.obufw.read a = 0)

/-! ## Family 5, authentication -/

/-- R151, R153: TAGGEN, both endings: the tag is the keyed hash of IBUF under `MAC_KEY_OF(MK)`; with the empty key only ERR
changes. -/
def Obligations.TaggenWritesTag : Prop :=
  ∀ s : State,
    (s.mklen ≠ 0 → exec .taggen s =
      .next { s with tag := Config.keyedHash (Config.macKeyOf s.keyBytes) s.ibuf, err := .success }) ∧
    (s.mklen = 0 → exec .taggen s = .next { s with err := .error .emptyKey })

/-- R152, R154: TAGVFY, three endings, writes ERR only. -/
def Obligations.TagvfyComparesTag : Prop :=
  ∀ s : State,
    (s.mklen = 0 → exec .tagvfy s = .next { s with err := .error .emptyKey }) ∧
    (s.mklen ≠ 0 → Config.keyedHash (Config.macKeyOf s.keyBytes) s.ibuf = s.tag →
      exec .tagvfy s = .next { s with err := .success }) ∧
    (s.mklen ≠ 0 → Config.keyedHash (Config.macKeyOf s.keyBytes) s.ibuf ≠ s.tag →
      exec .tagvfy s = .next { s with err := .error .integrityFailure })

/-- R154 corner cases (a) and (b): TAGVFY directly after TAGGEN ends with `ERR = 0`, and fails with IntegrityFailure
once TAG is changed in any way. -/
def Obligations.GeneratedTagVerifiesOnlyItself : Prop :=
  ∀ s : State, s.mklen ≠ 0 → ∃ t, exec .taggen s = .next t ∧ t.err = .success ∧ exec .tagvfy t = .next t ∧
    ∀ g : Digest, g ≠ t.tag →
      exec .tagvfy { t with tag := g } = .next { t with tag := g, err := .error .integrityFailure }

/-! ## Family 6, whole messages -/

/-- R161, R162, R181, R196: ENCRYPT, both endings. With a non-empty key the output is `EncryptWithIV` of the key, the input
and the draw (a free value, log 2) and ERR is 0 (the length clause is for inputs within R36 a); with the empty key the
output is empty and zero and ERR is EmptyKey. Key, round keys and input are scrubbed on both; IV, BLK, FO and TAG stay. -/
def Obligations.EncryptWritesCiphertextAndScrubs : Prop :=
  ∀ s : State,
    (s.mklen ≠ 0 → ∃ t x, exec .encrypt s = .next t ∧
      encryptWithIV Config.params s.keyBytes s.ibuf (drawOf (Config.rnd s.draws)) = .ok x ∧
      t = { s with mkw := t.mkw, mklen := 0, rk := Vector.replicate 16 (Vector.replicate 32 0), rkv := false,
                   ibufw := t.ibufw, ilen := 0, obufw := t.obufw, olen := t.olen, err := .success,
                   draws := s.draws + 1 } ∧
      (∀ a, t.mkw.read a = 0) ∧ (∀ a, t.ibufw.read a = 0) ∧ (∀ a, t.obufw.read a = x.getD a 0) ∧
      (s.ilen.toNat ≤ Config.params.ibufMax → t.obuf = x ∧ t.olen.toNat = x.length)) ∧
    (s.mklen = 0 → ∃ t, exec .encrypt s = .next t ∧
      t = { s with mkw := t.mkw, mklen := 0, rk := Vector.replicate 16 (Vector.replicate 32 0), rkv := false,
                   ibufw := t.ibufw, ilen := 0, obufw := t.obufw, olen := 0, err := .error .emptyKey,
                   draws := s.draws + 1 } ∧
      (∀ a, t.mkw.read a = 0) ∧ (∀ a, t.ibufw.read a = 0) ∧ (∀ a, t.obufw.read a = 0))

/-- R165, R181, R196: DECRYPT, success and failure: the result of `Decrypt` or an empty and zero output with the error's code;
key, round keys and input are scrubbed on every ending; IV, BLK, FO and TAG stay. -/
def Obligations.DecryptWritesPlaintextAndScrubs : Prop :=
  ∀ s : State,
    (∀ x, decryptMessage Config.params s.keyBytes s.ibuf = .ok x → ∃ t, exec .decrypt s = .next t ∧
      t = { s with mkw := t.mkw, mklen := 0, rk := Vector.replicate 16 (Vector.replicate 32 0), rkv := false,
                   ibufw := t.ibufw, ilen := 0, obufw := t.obufw, olen := t.olen, err := .success } ∧
      (∀ a, t.mkw.read a = 0) ∧ (∀ a, t.ibufw.read a = 0) ∧ (∀ a, t.obufw.read a = x.getD a 0) ∧ t.obuf = x ∧
      t.olen.toNat = x.length) ∧
    (∀ e, decryptMessage Config.params s.keyBytes s.ibuf = .error e → ∃ t, exec .decrypt s = .next t ∧
      t = { s with mkw := t.mkw, mklen := 0, rk := Vector.replicate 16 (Vector.replicate 32 0), rkv := false,
                   ibufw := t.ibufw, ilen := 0, obufw := t.obufw, olen := 0, err := .error e } ∧
      (∀ a, t.mkw.read a = 0) ∧ (∀ a, t.ibufw.read a = 0) ∧ (∀ a, t.obufw.read a = 0))

/-- R87, R161, R167: `EncryptWithIV` fails with EmptyKey on the empty key; else the ciphertext's bytes are the chaining value,
then block `i` of the padded plaintext enciphered under the key's chain (block 0 with the chaining value, the others
without), then the tag over all that precedes it. -/
def Obligations.CiphertextLayout : Prop :=
  ∀ (P : Params) (key plain : List Byte) (iv : Chaining),
    (key = [] → encryptWithIV P key plain iv = .error .emptyKey) ∧
    (key ≠ [] → ∃ x k, encryptWithIV P key plain iv = .ok x ∧ deriveKeys P key = .ok k ∧
      x.length = 64 + 16 * (plain.length / 16) ∧ x.take 16 = iv.toList ∧
      (∀ i, i < plain.length / 16 + 1 → ∀ b : Block, b.toList = ((padBytes plain).drop (16 * i)).take 16 →
        (x.drop (16 + 16 * i)).take 16 = (encBlock P b k (if i = 0 then some iv else none)).toList) ∧
      x.drop (x.length - 32) = (P.keyedHash (P.macKeyOf key) (x.take (x.length - 32))).toList)

/-- R168: a ciphertext block after the first is a function of the key and its own plaintext block alone: two messages under one
key with equal padded blocks at index `i >= 1` and `j >= 1` have equal ciphertext blocks there, whatever the chaining
values. -/
def Obligations.EqualLaterBlocksEncryptAlike : Prop :=
  ∀ (P : Params) (key p q x y : List Byte) (iv iv' : Chaining) (i j : Nat),
    encryptWithIV P key p iv = .ok x → encryptWithIV P key q iv' = .ok y →
    1 ≤ i → i < p.length / 16 + 1 → 1 ≤ j → j < q.length / 16 + 1 →
    ((padBytes p).drop (16 * i)).take 16 = ((padBytes q).drop (16 * j)).take 16 →
    (x.drop (16 + 16 * i)).take 16 = (y.drop (16 + 16 * j)).take 16

/-- R164, R169, R194: DECRYPT's tests in their order, by key, length, tag and padding. -/
def Obligations.DecryptTestsInOrder : Prop :=
  ∀ (P : Params) (key c : List Byte),
    (key = [] → decryptMessage P key c = .error .emptyKey) ∧
    (key ≠ [] → c.length < 48 → decryptMessage P key c = .error .truncatedInput) ∧
    (key ≠ [] → 48 ≤ c.length → (c.length - 48) % 16 ≠ 0 → decryptMessage P key c = .error .truncatedInput) ∧
    (key ≠ [] → 48 ≤ c.length → (c.length - 48) % 16 = 0 →
      (P.keyedHash (P.macKeyOf key) (c.take (c.length - 32))).toList ≠ c.drop (c.length - 32) →
      decryptMessage P key c = .error .integrityFailure) ∧
    (key ≠ [] → c.length = 48 →
      (P.keyedHash (P.macKeyOf key) (c.take (c.length - 32))).toList = c.drop (c.length - 32) →
      decryptMessage P key c = .error .invalidPadding) ∧
    (key ≠ [] → 48 ≤ c.length → (c.length - 48) % 16 = 0 →
      (P.keyedHash (P.macKeyOf key) (c.take (c.length - 32))).toList = c.drop (c.length - 32) →
      ∃ q k, deriveKeys P key = .ok k ∧ decryptMessage P key c = unpadBytes q ∧ q.length = c.length - 48 ∧
        ∀ i, 16 * i < q.length → ∀ b iv : Block, b.toList = (c.drop (16 + 16 * i)).take 16 → iv.toList = c.take 16 →
          (q.drop (16 * i)).take 16 = (decBlock P b k (if i = 0 then some iv else none)).toList)

/-- R166: decryption under the same key returns the plaintext, for every hash, keyed hash, key, plaintext and chaining
value. -/
def Obligations.DecryptReturnsEncryptedPlaintext : Prop :=
  ∀ (P : Params) (key plain : List Byte) (iv : Chaining), key ≠ [] →
    ∃ x, encryptWithIV P key plain iv = .ok x ∧ decryptMessage P key x = .ok plain

/-- R162, R165, R166 on the machine: ENCRYPT an input that leaves room for the ciphertext, load the same key and the output
as input, DECRYPT: the output is the first input. -/
def Obligations.EncryptThenDecryptReturnsInput : Prop :=
  ∀ s u : State, s.mklen ≠ 0 → s.ilen.toNat + 64 ≤ Config.params.ibufMax →
    ∃ t, exec .encrypt s = .next t ∧ t.err = .success ∧
      (u.keyBytes = s.keyBytes → u.ibuf = t.obuf →
        ∃ v, exec .decrypt u = .next v ∧ v.err = .success ∧ v.obuf = s.ibuf)

/-- R155: a change confined to the 32 tag bytes always gives IntegrityFailure; a change before them gives IntegrityFailure
exactly when the tag of the changed bytes differs from the unchanged tag. -/
def Obligations.TamperingGivesIntegrityFailure : Prop :=
  ∀ (P : Params) (key plain x y : List Byte) (iv : Chaining),
    encryptWithIV P key plain iv = .ok x → y.length = x.length →
    (y.take (x.length - 32) = x.take (x.length - 32) → y ≠ x →
      decryptMessage P key y = .error .integrityFailure) ∧
    (y.drop (x.length - 32) = x.drop (x.length - 32) →
      (decryptMessage P key y = .error .integrityFailure ↔
        P.keyedHash (P.macKeyOf key) (y.take (x.length - 32)) ≠ P.keyedHash (P.macKeyOf key) (x.take (x.length - 32))))

/-- ENCRYPT and DECRYPT read none of RK (R105), RKV, OBUFW, OLEN, ERR (R38, column "reads"), IV, BLK, FO and TAG (R162, R165;
R24, R27): their effect is the same whatever these hold, and IV, BLK, FO and TAG stay. -/
def Obligations.WholeMessageCommandsIgnoreBlockRegisters : Prop :=
  ∀ (i : Instr) (s u t : State), i = .encrypt ∨ i = .decrypt →
    u = { s with rk := u.rk, rkv := u.rkv, iv := u.iv, blk := u.blk, fo := u.fo, tag := u.tag, obufw := u.obufw,
                 olen := u.olen, err := u.err } →
    exec i s = .next t →
    exec i u = .next { t with iv := u.iv, blk := u.blk, fo := u.fo, tag := u.tag }

/-- R160, R196: no failing ending of a command that writes the output leaves any byte in it. -/
def Obligations.FailureLeavesNoOutput : Prop :=
  ∀ (i : Instr) (s t : State), i ∈ [Instr.unpad, .encrypt, .decrypt] → exec i s = .next t → t.err ≠ .success →
    t.olen = 0 ∧ ∀ a, t.obufw.read a = 0

/-! ## Family 7, zeroisation -/

/-- R182, R222: ZEROIZE leaves every piece of R20's state at its reset value (the model's own fields stay). -/
def Obligations.ZeroizeLeavesResetState : Prop :=
  ∀ s : State, exec .zeroize s =
    .next { State.reset with draws := s.draws, host := s.host, reply := s.reply }

/-! ## The host bus -/

/-- R31, R190: a read of STATUS returns ERR's code in bits 3:0, RKV in bit 4 and 0 elsewhere, and the codes are R190's. -/
def Obligations.StatusReadsErrAndRkv : Prop :=
  (∀ s : State, ∃ w, busRead Config.params 4 4 s = .readDone w ∧ w.toNat % 16 = s.err.code.toNat ∧
    w.getLsbD 4 = s.rkv ∧ ∀ j, 5 ≤ j → w.getLsbD j = false) ∧
  Ending.success.code = 0 ∧ (Ending.error .emptyKey).code = 1 ∧ (Ending.error .truncatedInput).code = 2 ∧
  (Ending.error .integrityFailure).code = 3 ∧ (Ending.error .invalidPadding).code = 4 ∧
  (Ending.fault .illegalCommand).code = 5 ∧ (Ending.fault .operandNotReady).code = 6

/-- R53, R54: a transaction is refused in exactly the five cases; a refused one changes nothing of the core, and a refused
read returns 0; a read of a write-only location is not refused and returns 0. That a refused
transaction is a step, which uses up the move, is the model's choice (log 6). -/
def Obligations.BusErrorsInExactlyFiveCases : Prop :=
  ∀ (s : State) (addr v : Word) (size a : Nat), a = addr.toNat →
    let reserved : Prop := ¬(a < 0x1C ∨ (0x20 ≤ a ∧ a < 0x48) ∨ (0x60 ≤ a ∧ a < 0x80) ∨
      (0x10000 ≤ a ∧ a < 0x10000 + Config.params.mkMax) ∨
      (0x10000000 ≤ a ∧ a < 0x10000000 + Config.params.ibufMax) ∨
      (0x20000000 ≤ a ∧ a < 0x20000000 + Config.params.ibufMax + 64))
    let readOnly : Prop := a = 0x04 ∨ a = 0x10 ∨ a = 0x14 ∨ a = 0x18 ∨ (0x40 ≤ a ∧ a < 0x48) ∨
      (0x20000000 ≤ a ∧ a < 0x20000000 + Config.params.ibufMax + 64)
    let tooLong : Prop := (a = 0x08 ∧ Config.params.mkMax < v.toNat) ∨ (a = 0x0C ∧ Config.params.ibufMax < v.toNat)
    (busRead Config.params addr size s = .readRefused ↔ a % 4 ≠ 0 ∨ size ≠ 4 ∨ reserved) ∧
    (busRead Config.params addr size s = .readRefused → (busRead Config.params addr size s).word = some 0) ∧
    (busWrite Config.params addr size v s = .refused ↔ a % 4 ≠ 0 ∨ size ≠ 4 ∨ reserved ∨ readOnly ∨ tooLong) ∧
    (a = 0 ∨ (0x10000 ≤ a ∧ a < 0x10000 + Config.params.mkMax) → a % 4 = 0 → size = 4 →
      busRead Config.params addr size s = .readDone 0) ∧
    (∀ rest, s.host = .write addr size v :: rest → busWrite Config.params addr size v s = .refused →
      step s = .next { s with host := rest, reply := some .writeRefused }) ∧
    (∀ rest, s.host = .read addr size :: rest → busRead Config.params addr size s = .readRefused →
      step s = .next { s with host := rest, reply := some .readRefused })

/-- R62: a read changes nothing of the core. It holds of refused reads too (R54); that a refused read is a step, which uses up
the move, is the model's choice (log 6), and the list of moves and the reply are the model's own (logs 4 and 5). -/
def Obligations.ReadsHaveNoSideEffect : Prop :=
  ∀ (s : State) (addr : Word) (size : Nat) (rest : List HostMove), s.host = .read addr size :: rest →
    step s = .next { s with host := rest, reply := some (busRead Config.params addr size s) }

/-- R39, R22, R23: no bus read depends on the master-key buffer or on the round keys, and every word of the MK window and CMD
reads 0. -/
def Obligations.KeyMaterialUnreadableOnBus : Prop :=
  (∀ (s : State) (addr : Word) (size : Nat) (m : Memory) (k : RoundKeys),
    busRead Config.params addr size { s with mkw := m, rk := k } = busRead Config.params addr size s) ∧
  (∀ (s : State) (k : Nat), 4 * k < Config.params.mkMax →
    busRead Config.params (BitVec.ofNat 32 (0x10000 + 4 * k)) 4 s = .readDone 0) ∧
  (∀ s : State, busRead Config.params 0 4 s = .readDone 0)

/-- R23, R32, R56: an accepted write to the MK window sets its four bytes of MKW, one to MKLEN sets the length; both clear RK
and RKV, whatever is written; nothing else of the core changes. -/
def Obligations.KeyWritesInvalidateRoundKeys : Prop :=
  ∀ (s : State) (v : Word) (rest : List HostMove),
    (∀ k, 4 * k < Config.params.mkMax → s.mkw.wf →
      s.host = .write (BitVec.ofNat 32 (0x10000 + 4 * k)) 4 v :: rest →
      ∃ t, step s = .next t ∧
        t = { s with mkw := t.mkw, rk := Vector.replicate 16 (Vector.replicate 32 0), rkv := false,
                     host := rest, reply := some .writeDone } ∧
        t.mkw.wf ∧ (∀ j, j < 4 → t.mkw.read (4 * k + j) = v.extractLsb' (8 * j) 8) ∧
        ∀ a, a < 4 * k ∨ 4 * k + 4 ≤ a → t.mkw.read a = s.mkw.read a) ∧
    (v.toNat ≤ Config.params.mkMax → s.host = .write 8 4 v :: rest →
      step s = .next { s with mklen := v, rk := Vector.replicate 16 (Vector.replicate 32 0), rkv := false,
                              host := rest, reply := some .writeDone })

/-- R55, R57: an accepted write to the IBUF window sets its four bytes of IBUFW, one to ILEN the length, and nothing else of
the core. -/
def Obligations.InputWritesStoreOnlyTheirBytes : Prop :=
  ∀ (s : State) (v : Word) (rest : List HostMove),
    (∀ k, 4 * k < Config.params.ibufMax → s.ibufw.wf →
      s.host = .write (BitVec.ofNat 32 (0x10000000 + 4 * k)) 4 v :: rest →
      ∃ t, step s = .next t ∧
        t = { s with ibufw := t.ibufw, host := rest, reply := some .writeDone } ∧
        t.ibufw.wf ∧ (∀ j, j < 4 → t.ibufw.read (4 * k + j) = v.extractLsb' (8 * j) 8) ∧
        ∀ a, a < 4 * k ∨ 4 * k + 4 ≤ a → t.ibufw.read a = s.ibufw.read a) ∧
    (v.toNat ≤ Config.params.ibufMax → s.host = .write 0x0C 4 v :: rest →
      step s = .next { s with ilen := v, host := rest, reply := some .writeDone })

/-- R55, R60: an accepted write to a word of IV, BLK or TAG sets its four bytes and nothing else of the core; in particular the
round keys stay. -/
def Obligations.RegisterWindowWritesSetFourBytes : Prop :=
  ∀ (s : State) (v : Word) (rest : List HostMove) (k : Nat),
    (k < 4 → s.host = .write (BitVec.ofNat 32 (0x20 + 4 * k)) 4 v :: rest →
      ∃ t, step s = .next t ∧ t = { s with iv := t.iv, host := rest, reply := some .writeDone } ∧
        ∀ j (hj : j < 16), t.iv[j] = if j / 4 = k then v.extractLsb' (8 * (j % 4)) 8 else s.iv[j]) ∧
    (k < 4 → s.host = .write (BitVec.ofNat 32 (0x30 + 4 * k)) 4 v :: rest →
      ∃ t, step s = .next t ∧ t = { s with blk := t.blk, host := rest, reply := some .writeDone } ∧
        ∀ j (hj : j < 16), t.blk[j] = if j / 4 = k then v.extractLsb' (8 * (j % 4)) 8 else s.blk[j]) ∧
    (k < 8 → s.host = .write (BitVec.ofNat 32 (0x60 + 4 * k)) 4 v :: rest →
      ∃ t, step s = .next t ∧ t = { s with tag := t.tag, host := rest, reply := some .writeDone } ∧
        ∀ j (hj : j < 32), t.tag[j] = if j / 4 = k then v.extractLsb' (8 * (j % 4)) 8 else s.tag[j])

/-- R57, R60, R32: a read after an accepted write to the same address returns the word written, everywhere but in the MK window,
which reads 0. -/
def Obligations.ReadAfterWriteReturnsWord : Prop :=
  ∀ (s t : State) (addr v : Word), s.ibufw.wf → busWrite Config.params addr 4 v s = .stored t →
    busRead Config.params addr 4 t =
      if 0x10000 ≤ addr.toNat ∧ addr.toNat < 0x10000 + Config.params.mkMax then .readDone 0 else .readDone v

/-- R55, R59: the words of the OBUF window, read in order up to `ceil(OLEN / 4)` and unpacked lowest byte first, begin with the
output; a word at or past that count reads 0. -/
def Obligations.OutputWindowReadsOutput : Prop :=
  ∀ s : State, s.Inv Config.params →
    (∃ ws : List Word, ws.length = (s.olen.toNat + 3) / 4 ∧
      (∀ k (hk : k < ws.length), busRead Config.params (BitVec.ofNat 32 (0x20000000 + 4 * k)) 4 s = .readDone ws[k]) ∧
      (ws.flatMap fun w => [w.extractLsb' 0 8, w.extractLsb' 8 8, w.extractLsb' 16 8, w.extractLsb' 24 8]).take
        s.olen.toNat = s.obuf) ∧
    (∀ k, (s.olen.toNat + 3) / 4 ≤ k → 4 * k < Config.params.obufMax →
      busRead Config.params (BitVec.ofNat 32 (0x20000000 + 4 * k)) 4 s = .readDone 0)

/-- R55, R60: the words of IV, BLK, FO and TAG hold four bytes each, the lowest index in the lowest bits. -/
def Obligations.RegisterWindowsPackLittleEndian : Prop :=
  ∀ (s : State) (k j : Nat), j < 4 →
    (k < 4 → ∃ w, busRead Config.params (BitVec.ofNat 32 (0x20 + 4 * k)) 4 s = .readDone w ∧
      w.extractLsb' (8 * j) 8 = s.iv.toList.getD (4 * k + j) 0) ∧
    (k < 4 → ∃ w, busRead Config.params (BitVec.ofNat 32 (0x30 + 4 * k)) 4 s = .readDone w ∧
      w.extractLsb' (8 * j) 8 = s.blk.toList.getD (4 * k + j) 0) ∧
    (k < 2 → ∃ w, busRead Config.params (BitVec.ofNat 32 (0x40 + 4 * k)) 4 s = .readDone w ∧
      w.extractLsb' (8 * j) 8 = s.fo.toList.getD (4 * k + j) 0) ∧
    (k < 8 → ∃ w, busRead Config.params (BitVec.ofNat 32 (0x60 + 4 * k)) 4 s = .readDone w ∧
      w.extractLsb' (8 * j) 8 = s.tag.toList.getD (4 * k + j) 0)

/-- R10, R32, R33: the length and capacity registers read as their numbers, and the capacities are within R10's bounds. -/
def Obligations.LengthAndCapacityRegistersRead : Prop :=
  (∀ s : State, busRead Config.params 0x08 4 s = .readDone s.mklen ∧ busRead Config.params 0x0C 4 s = .readDone s.ilen ∧
    busRead Config.params 0x10 4 s = .readDone s.olen ∧
    ∃ c d : Word, busRead Config.params 0x14 4 s = .readDone c ∧ c.toNat = Config.params.mkMax ∧
      busRead Config.params 0x18 4 s = .readDone d ∧ d.toNat = Config.params.ibufMax) ∧
  Config.params.mkMax % 4 = 0 ∧ 4 ≤ Config.params.mkMax ∧ Config.params.mkMax ≤ 65536 ∧
  Config.params.ibufMax % 4 = 0 ∧ 64 ≤ Config.params.ibufMax ∧ Config.params.ibufMax ≤ 0x0FFFFFC0

/-- R56, R91: the pseudo-instruction LDKEY, and its word writes and length write in the other order, leave `MK = K` for every key
that fits, clear the round keys and change nothing else of the core. -/
def Obligations.LdkeyLoadsMasterKey : Prop :=
  ∀ (s : State) (key : List Byte), s.mkw.wf → key.length ≤ Config.params.mkMax →
    ∀ ms, ms = ldkey key ∨ ms = wrBytes mkBase key ++ [wr 0x08 (zext32 key.length)] →
    ∃ t, runMoves ms s = .next t ∧ t.keyBytes = key ∧ t.reply = some .writeDone ∧
      t = { s with mkw := t.mkw, mklen := t.mklen, rk := zeroKeys, rkv := false, host := [], reply := t.reply }

/-- R57, R91: the same for LDIN and the input; the round keys stay. -/
def Obligations.LdinLoadsInput : Prop :=
  ∀ (s : State) (x : List Byte), s.ibufw.wf → x.length ≤ Config.params.ibufMax →
    ∀ ms, ms = ldin x ∨ ms = wrBytes ibufBase x ++ [wr 0x0C (zext32 x.length)] →
    ∃ t, runMoves ms s = .next t ∧ t.ibuf = x ∧ t.reply = some .writeDone ∧
      t = { s with ibufw := t.ibufw, ilen := t.ilen, host := [], reply := t.reply }
end

