-- ==== Sys2Proof/Laws/Config.lean ====
section
/-! SUPPORT. What is known of the machine's parameters: R10's constraints and nothing else. -/

namespace Sys2Proof

/-- MK_MAX is a multiple of 4 from 4 to 65536 (R10). -/
theorem Params.mkMax_bounds {P : Params} (h : P.wellFormed = true) :
    P.mkMax % 4 = 0 ∧ 4 ≤ P.mkMax ∧ P.mkMax ≤ 65536 := by
  simp only [Params.wellFormed, Params.mkMaxOk, Bool.and_eq_true, beq_iff_eq, decide_eq_true_eq] at h
  exact ⟨h.1.1.1, h.1.1.2, h.1.2⟩

/-- IBUF_MAX is a multiple of 4 from 64 to 0x0FFF_FFC0 (R10). -/
theorem Params.ibufMax_bounds {P : Params} (h : P.wellFormed = true) :
    P.ibufMax % 4 = 0 ∧ 64 ≤ P.ibufMax ∧ P.ibufMax ≤ 0x0FFFFFC0 := by
  simp only [Params.wellFormed, Params.ibufMaxOk, Bool.and_eq_true, beq_iff_eq, decide_eq_true_eq] at h
  exact ⟨h.2.1.1, h.2.1.2, h.2.2⟩

/-- The machine's capacities satisfy R10. -/
theorem Config.params_wellFormed : Config.params.wellFormed = true := by
  have h1 := Config.mkStep.isLt
  have h2 := Config.ibufStep.isLt
  have h3 : Config.params.mkMax = 4 * (Config.mkStep.val + 1) := rfl
  have h4 : Config.params.ibufMax = 4 * (Config.ibufStep.val + 16) := rfl
  simp only [Params.wellFormed, Params.mkMaxOk, Params.ibufMaxOk, Bool.and_eq_true, beq_iff_eq, decide_eq_true_eq]
  omega

end Sys2Proof
end

