-- ==== Sys2Proof/Laws/State.lean ====
section
/-! SUPPORT. What each named update of State leaves in each field: one lemma per field per update, all by definition. -/

namespace Sys2Proof.Machine

@[simp] theorem State.setOut_mkw (x : List Byte) (s : State) : (s.setOut x).mkw = s.mkw := rfl
@[simp] theorem State.setOut_mklen (x : List Byte) (s : State) : (s.setOut x).mklen = s.mklen := rfl
@[simp] theorem State.setOut_rk (x : List Byte) (s : State) : (s.setOut x).rk = s.rk := rfl
@[simp] theorem State.setOut_rkv (x : List Byte) (s : State) : (s.setOut x).rkv = s.rkv := rfl
@[simp] theorem State.setOut_iv (x : List Byte) (s : State) : (s.setOut x).iv = s.iv := rfl
@[simp] theorem State.setOut_blk (x : List Byte) (s : State) : (s.setOut x).blk = s.blk := rfl
@[simp] theorem State.setOut_fo (x : List Byte) (s : State) : (s.setOut x).fo = s.fo := rfl
@[simp] theorem State.setOut_tag (x : List Byte) (s : State) : (s.setOut x).tag = s.tag := rfl
@[simp] theorem State.setOut_ibufw (x : List Byte) (s : State) : (s.setOut x).ibufw = s.ibufw := rfl
@[simp] theorem State.setOut_ilen (x : List Byte) (s : State) : (s.setOut x).ilen = s.ilen := rfl
@[simp] theorem State.setOut_obufw (x : List Byte) (s : State) : (s.setOut x).obufw = Memory.ofList x := rfl
@[simp] theorem State.setOut_olen (x : List Byte) (s : State) : (s.setOut x).olen = zext32 x.length := rfl
@[simp] theorem State.setOut_err (x : List Byte) (s : State) : (s.setOut x).err = s.err := rfl
@[simp] theorem State.setOut_draws (x : List Byte) (s : State) : (s.setOut x).draws = s.draws := rfl
@[simp] theorem State.setOut_host (x : List Byte) (s : State) : (s.setOut x).host = s.host := rfl
@[simp] theorem State.setOut_reply (x : List Byte) (s : State) : (s.setOut x).reply = s.reply := rfl

@[simp] theorem State.finish_mkw (e : Ending) (s : State) : (s.finish e).mkw = s.mkw := rfl
@[simp] theorem State.finish_mklen (e : Ending) (s : State) : (s.finish e).mklen = s.mklen := rfl
@[simp] theorem State.finish_rk (e : Ending) (s : State) : (s.finish e).rk = s.rk := rfl
@[simp] theorem State.finish_rkv (e : Ending) (s : State) : (s.finish e).rkv = s.rkv := rfl
@[simp] theorem State.finish_iv (e : Ending) (s : State) : (s.finish e).iv = s.iv := rfl
@[simp] theorem State.finish_blk (e : Ending) (s : State) : (s.finish e).blk = s.blk := rfl
@[simp] theorem State.finish_fo (e : Ending) (s : State) : (s.finish e).fo = s.fo := rfl
@[simp] theorem State.finish_tag (e : Ending) (s : State) : (s.finish e).tag = s.tag := rfl
@[simp] theorem State.finish_ibufw (e : Ending) (s : State) : (s.finish e).ibufw = s.ibufw := rfl
@[simp] theorem State.finish_ilen (e : Ending) (s : State) : (s.finish e).ilen = s.ilen := rfl
@[simp] theorem State.finish_obufw (e : Ending) (s : State) : (s.finish e).obufw = s.obufw := rfl
@[simp] theorem State.finish_olen (e : Ending) (s : State) : (s.finish e).olen = s.olen := rfl
@[simp] theorem State.finish_err (e : Ending) (s : State) : (s.finish e).err = e := rfl
@[simp] theorem State.finish_draws (e : Ending) (s : State) : (s.finish e).draws = s.draws := rfl
@[simp] theorem State.finish_host (e : Ending) (s : State) : (s.finish e).host = s.host := rfl
@[simp] theorem State.finish_reply (e : Ending) (s : State) : (s.finish e).reply = s.reply := rfl

@[simp] theorem State.succeed_mkw (s : State) : s.succeed.mkw = s.mkw := rfl
@[simp] theorem State.succeed_mklen (s : State) : s.succeed.mklen = s.mklen := rfl
@[simp] theorem State.succeed_rk (s : State) : s.succeed.rk = s.rk := rfl
@[simp] theorem State.succeed_rkv (s : State) : s.succeed.rkv = s.rkv := rfl
@[simp] theorem State.succeed_iv (s : State) : s.succeed.iv = s.iv := rfl
@[simp] theorem State.succeed_blk (s : State) : s.succeed.blk = s.blk := rfl
@[simp] theorem State.succeed_fo (s : State) : s.succeed.fo = s.fo := rfl
@[simp] theorem State.succeed_tag (s : State) : s.succeed.tag = s.tag := rfl
@[simp] theorem State.succeed_ibufw (s : State) : s.succeed.ibufw = s.ibufw := rfl
@[simp] theorem State.succeed_ilen (s : State) : s.succeed.ilen = s.ilen := rfl
@[simp] theorem State.succeed_obufw (s : State) : s.succeed.obufw = s.obufw := rfl
@[simp] theorem State.succeed_olen (s : State) : s.succeed.olen = s.olen := rfl
@[simp] theorem State.succeed_err (s : State) : s.succeed.err = .success := rfl
@[simp] theorem State.succeed_draws (s : State) : s.succeed.draws = s.draws := rfl
@[simp] theorem State.succeed_host (s : State) : s.succeed.host = s.host := rfl
@[simp] theorem State.succeed_reply (s : State) : s.succeed.reply = s.reply := rfl

@[simp] theorem State.raise_mkw (e : Error) (s : State) : (s.raise e).mkw = s.mkw := rfl
@[simp] theorem State.raise_mklen (e : Error) (s : State) : (s.raise e).mklen = s.mklen := rfl
@[simp] theorem State.raise_rk (e : Error) (s : State) : (s.raise e).rk = s.rk := rfl
@[simp] theorem State.raise_rkv (e : Error) (s : State) : (s.raise e).rkv = s.rkv := rfl
@[simp] theorem State.raise_iv (e : Error) (s : State) : (s.raise e).iv = s.iv := rfl
@[simp] theorem State.raise_blk (e : Error) (s : State) : (s.raise e).blk = s.blk := rfl
@[simp] theorem State.raise_fo (e : Error) (s : State) : (s.raise e).fo = s.fo := rfl
@[simp] theorem State.raise_tag (e : Error) (s : State) : (s.raise e).tag = s.tag := rfl
@[simp] theorem State.raise_ibufw (e : Error) (s : State) : (s.raise e).ibufw = s.ibufw := rfl
@[simp] theorem State.raise_ilen (e : Error) (s : State) : (s.raise e).ilen = s.ilen := rfl
@[simp] theorem State.raise_obufw (e : Error) (s : State) : (s.raise e).obufw = s.obufw := rfl
@[simp] theorem State.raise_olen (e : Error) (s : State) : (s.raise e).olen = s.olen := rfl
@[simp] theorem State.raise_err (e : Error) (s : State) : (s.raise e).err = .error e := rfl
@[simp] theorem State.raise_draws (e : Error) (s : State) : (s.raise e).draws = s.draws := rfl
@[simp] theorem State.raise_host (e : Error) (s : State) : (s.raise e).host = s.host := rfl
@[simp] theorem State.raise_reply (e : Error) (s : State) : (s.raise e).reply = s.reply := rfl

@[simp] theorem State.raiseFault_mkw (f : CommandFault) (s : State) : (s.raiseFault f).mkw = s.mkw := rfl
@[simp] theorem State.raiseFault_mklen (f : CommandFault) (s : State) : (s.raiseFault f).mklen = s.mklen := rfl
@[simp] theorem State.raiseFault_rk (f : CommandFault) (s : State) : (s.raiseFault f).rk = s.rk := rfl
@[simp] theorem State.raiseFault_rkv (f : CommandFault) (s : State) : (s.raiseFault f).rkv = s.rkv := rfl
@[simp] theorem State.raiseFault_iv (f : CommandFault) (s : State) : (s.raiseFault f).iv = s.iv := rfl
@[simp] theorem State.raiseFault_blk (f : CommandFault) (s : State) : (s.raiseFault f).blk = s.blk := rfl
@[simp] theorem State.raiseFault_fo (f : CommandFault) (s : State) : (s.raiseFault f).fo = s.fo := rfl
@[simp] theorem State.raiseFault_tag (f : CommandFault) (s : State) : (s.raiseFault f).tag = s.tag := rfl
@[simp] theorem State.raiseFault_ibufw (f : CommandFault) (s : State) : (s.raiseFault f).ibufw = s.ibufw := rfl
@[simp] theorem State.raiseFault_ilen (f : CommandFault) (s : State) : (s.raiseFault f).ilen = s.ilen := rfl
@[simp] theorem State.raiseFault_obufw (f : CommandFault) (s : State) : (s.raiseFault f).obufw = s.obufw := rfl
@[simp] theorem State.raiseFault_olen (f : CommandFault) (s : State) : (s.raiseFault f).olen = s.olen := rfl
@[simp] theorem State.raiseFault_err (f : CommandFault) (s : State) : (s.raiseFault f).err = .fault f := rfl
@[simp] theorem State.raiseFault_draws (f : CommandFault) (s : State) : (s.raiseFault f).draws = s.draws := rfl
@[simp] theorem State.raiseFault_host (f : CommandFault) (s : State) : (s.raiseFault f).host = s.host := rfl
@[simp] theorem State.raiseFault_reply (f : CommandFault) (s : State) : (s.raiseFault f).reply = s.reply := rfl

@[simp] theorem State.clearKeys_mkw (s : State) : s.clearKeys.mkw = s.mkw := rfl
@[simp] theorem State.clearKeys_mklen (s : State) : s.clearKeys.mklen = s.mklen := rfl
@[simp] theorem State.clearKeys_rk (s : State) : s.clearKeys.rk = zeroKeys := rfl
@[simp] theorem State.clearKeys_rkv (s : State) : s.clearKeys.rkv = false := rfl
@[simp] theorem State.clearKeys_iv (s : State) : s.clearKeys.iv = s.iv := rfl
@[simp] theorem State.clearKeys_blk (s : State) : s.clearKeys.blk = s.blk := rfl
@[simp] theorem State.clearKeys_fo (s : State) : s.clearKeys.fo = s.fo := rfl
@[simp] theorem State.clearKeys_tag (s : State) : s.clearKeys.tag = s.tag := rfl
@[simp] theorem State.clearKeys_ibufw (s : State) : s.clearKeys.ibufw = s.ibufw := rfl
@[simp] theorem State.clearKeys_ilen (s : State) : s.clearKeys.ilen = s.ilen := rfl
@[simp] theorem State.clearKeys_obufw (s : State) : s.clearKeys.obufw = s.obufw := rfl
@[simp] theorem State.clearKeys_olen (s : State) : s.clearKeys.olen = s.olen := rfl
@[simp] theorem State.clearKeys_err (s : State) : s.clearKeys.err = s.err := rfl
@[simp] theorem State.clearKeys_draws (s : State) : s.clearKeys.draws = s.draws := rfl
@[simp] theorem State.clearKeys_host (s : State) : s.clearKeys.host = s.host := rfl
@[simp] theorem State.clearKeys_reply (s : State) : s.clearKeys.reply = s.reply := rfl

@[simp] theorem State.scrub_mkw (s : State) : s.scrub.mkw = [] := rfl
@[simp] theorem State.scrub_mklen (s : State) : s.scrub.mklen = 0 := rfl
@[simp] theorem State.scrub_rk (s : State) : s.scrub.rk = zeroKeys := rfl
@[simp] theorem State.scrub_rkv (s : State) : s.scrub.rkv = false := rfl
@[simp] theorem State.scrub_iv (s : State) : s.scrub.iv = s.iv := rfl
@[simp] theorem State.scrub_blk (s : State) : s.scrub.blk = s.blk := rfl
@[simp] theorem State.scrub_fo (s : State) : s.scrub.fo = s.fo := rfl
@[simp] theorem State.scrub_tag (s : State) : s.scrub.tag = s.tag := rfl
@[simp] theorem State.scrub_ibufw (s : State) : s.scrub.ibufw = [] := rfl
@[simp] theorem State.scrub_ilen (s : State) : s.scrub.ilen = 0 := rfl
@[simp] theorem State.scrub_obufw (s : State) : s.scrub.obufw = s.obufw := rfl
@[simp] theorem State.scrub_olen (s : State) : s.scrub.olen = s.olen := rfl
@[simp] theorem State.scrub_err (s : State) : s.scrub.err = s.err := rfl
@[simp] theorem State.scrub_draws (s : State) : s.scrub.draws = s.draws := rfl
@[simp] theorem State.scrub_host (s : State) : s.scrub.host = s.host := rfl
@[simp] theorem State.scrub_reply (s : State) : s.scrub.reply = s.reply := rfl

@[simp] theorem State.sampled_mkw (s : State) : s.sampled.mkw = s.mkw := rfl
@[simp] theorem State.sampled_mklen (s : State) : s.sampled.mklen = s.mklen := rfl
@[simp] theorem State.sampled_rk (s : State) : s.sampled.rk = s.rk := rfl
@[simp] theorem State.sampled_rkv (s : State) : s.sampled.rkv = s.rkv := rfl
@[simp] theorem State.sampled_iv (s : State) : s.sampled.iv = s.iv := rfl
@[simp] theorem State.sampled_blk (s : State) : s.sampled.blk = s.blk := rfl
@[simp] theorem State.sampled_fo (s : State) : s.sampled.fo = s.fo := rfl
@[simp] theorem State.sampled_tag (s : State) : s.sampled.tag = s.tag := rfl
@[simp] theorem State.sampled_ibufw (s : State) : s.sampled.ibufw = s.ibufw := rfl
@[simp] theorem State.sampled_ilen (s : State) : s.sampled.ilen = s.ilen := rfl
@[simp] theorem State.sampled_obufw (s : State) : s.sampled.obufw = s.obufw := rfl
@[simp] theorem State.sampled_olen (s : State) : s.sampled.olen = s.olen := rfl
@[simp] theorem State.sampled_err (s : State) : s.sampled.err = s.err := rfl
@[simp] theorem State.sampled_draws (s : State) : s.sampled.draws = s.draws + 1 := rfl
@[simp] theorem State.sampled_host (s : State) : s.sampled.host = s.host := rfl
@[simp] theorem State.sampled_reply (s : State) : s.sampled.reply = s.reply := rfl

@[simp] theorem State.answer_mkw (rest : List HostMove) (r : BusReply) (s : State) : (s.answer rest r).mkw = s.mkw := rfl
@[simp] theorem State.answer_mklen (rest : List HostMove) (r : BusReply) (s : State) : (s.answer rest r).mklen = s.mklen := rfl
@[simp] theorem State.answer_rk (rest : List HostMove) (r : BusReply) (s : State) : (s.answer rest r).rk = s.rk := rfl
@[simp] theorem State.answer_rkv (rest : List HostMove) (r : BusReply) (s : State) : (s.answer rest r).rkv = s.rkv := rfl
@[simp] theorem State.answer_iv (rest : List HostMove) (r : BusReply) (s : State) : (s.answer rest r).iv = s.iv := rfl
@[simp] theorem State.answer_blk (rest : List HostMove) (r : BusReply) (s : State) : (s.answer rest r).blk = s.blk := rfl
@[simp] theorem State.answer_fo (rest : List HostMove) (r : BusReply) (s : State) : (s.answer rest r).fo = s.fo := rfl
@[simp] theorem State.answer_tag (rest : List HostMove) (r : BusReply) (s : State) : (s.answer rest r).tag = s.tag := rfl
@[simp] theorem State.answer_ibufw (rest : List HostMove) (r : BusReply) (s : State) : (s.answer rest r).ibufw = s.ibufw := rfl
@[simp] theorem State.answer_ilen (rest : List HostMove) (r : BusReply) (s : State) : (s.answer rest r).ilen = s.ilen := rfl
@[simp] theorem State.answer_obufw (rest : List HostMove) (r : BusReply) (s : State) : (s.answer rest r).obufw = s.obufw := rfl
@[simp] theorem State.answer_olen (rest : List HostMove) (r : BusReply) (s : State) : (s.answer rest r).olen = s.olen := rfl
@[simp] theorem State.answer_err (rest : List HostMove) (r : BusReply) (s : State) : (s.answer rest r).err = s.err := rfl
@[simp] theorem State.answer_draws (rest : List HostMove) (r : BusReply) (s : State) : (s.answer rest r).draws = s.draws := rfl
@[simp] theorem State.answer_host (rest : List HostMove) (r : BusReply) (s : State) : (s.answer rest r).host = rest := rfl
@[simp] theorem State.answer_reply (rest : List HostMove) (r : BusReply) (s : State) : (s.answer rest r).reply = some r := rfl

@[simp] theorem State.resetCore_mkw (rest : List HostMove) (s : State) : (s.resetCore rest).mkw = State.reset.mkw := rfl
@[simp] theorem State.resetCore_mklen (rest : List HostMove) (s : State) : (s.resetCore rest).mklen = State.reset.mklen := rfl
@[simp] theorem State.resetCore_rk (rest : List HostMove) (s : State) : (s.resetCore rest).rk = State.reset.rk := rfl
@[simp] theorem State.resetCore_rkv (rest : List HostMove) (s : State) : (s.resetCore rest).rkv = State.reset.rkv := rfl
@[simp] theorem State.resetCore_iv (rest : List HostMove) (s : State) : (s.resetCore rest).iv = State.reset.iv := rfl
@[simp] theorem State.resetCore_blk (rest : List HostMove) (s : State) : (s.resetCore rest).blk = State.reset.blk := rfl
@[simp] theorem State.resetCore_fo (rest : List HostMove) (s : State) : (s.resetCore rest).fo = State.reset.fo := rfl
@[simp] theorem State.resetCore_tag (rest : List HostMove) (s : State) : (s.resetCore rest).tag = State.reset.tag := rfl
@[simp] theorem State.resetCore_ibufw (rest : List HostMove) (s : State) : (s.resetCore rest).ibufw = State.reset.ibufw := rfl
@[simp] theorem State.resetCore_ilen (rest : List HostMove) (s : State) : (s.resetCore rest).ilen = State.reset.ilen := rfl
@[simp] theorem State.resetCore_obufw (rest : List HostMove) (s : State) : (s.resetCore rest).obufw = State.reset.obufw := rfl
@[simp] theorem State.resetCore_olen (rest : List HostMove) (s : State) : (s.resetCore rest).olen = State.reset.olen := rfl
@[simp] theorem State.resetCore_err (rest : List HostMove) (s : State) : (s.resetCore rest).err = State.reset.err := rfl
@[simp] theorem State.resetCore_draws (rest : List HostMove) (s : State) : (s.resetCore rest).draws = s.draws := rfl
@[simp] theorem State.resetCore_host (rest : List HostMove) (s : State) : (s.resetCore rest).host = rest := rfl
@[simp] theorem State.resetCore_reply (rest : List HostMove) (s : State) : (s.resetCore rest).reply = State.reset.reply := rfl

@[simp] theorem State.deliver_mkw (r : Except Error (List Byte)) (s : State) : (s.deliver r).mkw = s.mkw := by
  cases r <;> rfl
@[simp] theorem State.deliver_mklen (r : Except Error (List Byte)) (s : State) : (s.deliver r).mklen = s.mklen := by
  cases r <;> rfl
@[simp] theorem State.deliver_rk (r : Except Error (List Byte)) (s : State) : (s.deliver r).rk = s.rk := by
  cases r <;> rfl
@[simp] theorem State.deliver_rkv (r : Except Error (List Byte)) (s : State) : (s.deliver r).rkv = s.rkv := by
  cases r <;> rfl
@[simp] theorem State.deliver_iv (r : Except Error (List Byte)) (s : State) : (s.deliver r).iv = s.iv := by
  cases r <;> rfl
@[simp] theorem State.deliver_blk (r : Except Error (List Byte)) (s : State) : (s.deliver r).blk = s.blk := by
  cases r <;> rfl
@[simp] theorem State.deliver_fo (r : Except Error (List Byte)) (s : State) : (s.deliver r).fo = s.fo := by
  cases r <;> rfl
@[simp] theorem State.deliver_tag (r : Except Error (List Byte)) (s : State) : (s.deliver r).tag = s.tag := by
  cases r <;> rfl
@[simp] theorem State.deliver_ibufw (r : Except Error (List Byte)) (s : State) : (s.deliver r).ibufw = s.ibufw := by
  cases r <;> rfl
@[simp] theorem State.deliver_ilen (r : Except Error (List Byte)) (s : State) : (s.deliver r).ilen = s.ilen := by
  cases r <;> rfl
@[simp] theorem State.deliver_draws (r : Except Error (List Byte)) (s : State) : (s.deliver r).draws = s.draws := by
  cases r <;> rfl
@[simp] theorem State.deliver_host (r : Except Error (List Byte)) (s : State) : (s.deliver r).host = s.host := by
  cases r <;> rfl
@[simp] theorem State.deliver_reply (r : Except Error (List Byte)) (s : State) : (s.deliver r).reply = s.reply := by
  cases r <;> rfl

/-- A result is delivered: the output is set and the command succeeds. -/
theorem State.deliver_ok (x : List Byte) (s : State) : s.deliver (.ok x) = (s.setOut x).succeed := rfl

/-- An error is delivered: the output is empty and ERR holds the error. -/
theorem State.deliver_error (e : Error) (s : State) : s.deliver (.error e) = (s.setOut []).raise e := rfl

/-- The key does not change where MKW and MKLEN do not. -/
theorem State.keyBytes_congr {s t : State} (h : t.mkw = s.mkw) (h' : t.mklen = s.mklen) : t.keyBytes = s.keyBytes := by
  simp [State.keyBytes, h, h']

/-- The input does not change where IBUFW and ILEN do not. -/
theorem State.ibuf_congr {s t : State} (h : t.ibufw = s.ibufw) (h' : t.ilen = s.ilen) : t.ibuf = s.ibuf := by
  simp [State.ibuf, h, h']

/-- The output does not change where OBUFW and OLEN do not. -/
theorem State.obuf_congr {s t : State} (h : t.obufw = s.obufw) (h' : t.olen = s.olen) : t.obuf = s.obuf := by
  simp [State.obuf, h, h']

end Sys2Proof.Machine
end

