-- ==== Sys2Proof/Laws/Bus.lean ====
section
/-! SUPPORT. What a bus write can do, said once (R54, R62), and the locations of the address map (R53). -/

namespace Sys2Proof.Machine

/-- An accepted access is a 4-byte access at a multiple of 4 that reaches a location (R54, R61). -/
theorem target_eq_some {P : Params} {addr : Word} {size : Nat} {loc : Loc} :
    target P addr size = some loc ↔ addr.toNat % 4 = 0 ∧ size = 4 ∧ locate P addr.toNat = some loc := by
  unfold target
  by_cases h1 : addr.toNat % 4 = 0 <;> by_cases h2 : size = 4 <;> simp [h1, h2]

theorem target_eq_none {P : Params} {addr : Word} {size : Nat} :
    target P addr size = none ↔ addr.toNat % 4 ≠ 0 ∨ size ≠ 4 ∨ locate P addr.toNat = none := by
  unfold target
  by_cases h1 : addr.toNat % 4 = 0 <;> by_cases h2 : size = 4 <;> simp [h1, h2]

/-- The offsets of each location, and the word indexes within its window (R53). -/
theorem locate_cases (P : Params) (a : Nat) (ha : a % 4 = 0) :
    (a = 0x00 ∧ locate P a = some .cmd) ∨ (a = 0x04 ∧ locate P a = some .status) ∨
    (a = 0x08 ∧ locate P a = some .mklen) ∨ (a = 0x0C ∧ locate P a = some .ilen) ∨
    (a = 0x10 ∧ locate P a = some .olen) ∨ (a = 0x14 ∧ locate P a = some .capMk) ∨
    (a = 0x18 ∧ locate P a = some .capIbuf) ∨
    (∃ k < 4, a = 0x20 + 4 * k ∧ locate P a = some (.iv k)) ∨
    (∃ k < 4, a = 0x30 + 4 * k ∧ locate P a = some (.blk k)) ∨
    (∃ k < 2, a = 0x40 + 4 * k ∧ locate P a = some (.fo k)) ∨
    (∃ k < 8, a = 0x60 + 4 * k ∧ locate P a = some (.tag k)) ∨
    (∃ k, 4 * k < P.mkMax ∧ a = mkBase + 4 * k ∧ locate P a = some (.mk k)) ∨
    (∃ k, 4 * k < P.ibufMax ∧ a = ibufBase + 4 * k ∧ locate P a = some (.ibuf k)) ∨
    (∃ k, 4 * k < P.obufMax ∧ a = obufBase + 4 * k ∧ locate P a = some (.obuf k)) ∨
    (¬(a < 0x1C ∨ (0x20 ≤ a ∧ a < 0x48) ∨ (0x60 ≤ a ∧ a < 0x80) ∨ (mkBase ≤ a ∧ a < mkBase + P.mkMax) ∨
        (ibufBase ≤ a ∧ a < ibufBase + P.ibufMax) ∨ (obufBase ≤ a ∧ a < obufBase + P.obufMax)) ∧
      locate P a = none) := by
  generalize hx : locate P a = x
  have hb1 : mkBase = 0x00010000 := rfl
  have hb2 : ibufBase = 0x10000000 := rfl
  have hb3 : obufBase = 0x20000000 := rfl
  rw [locate] at hx
  by_cases h0 : a = 0x00
  · rw [if_pos h0] at hx
    exact .inl ⟨h0, hx.symm⟩
  rw [if_neg h0] at hx
  right
  by_cases h1 : a = 0x04
  · rw [if_pos h1] at hx
    exact .inl ⟨h1, hx.symm⟩
  rw [if_neg h1] at hx
  right
  by_cases h2 : a = 0x08
  · rw [if_pos h2] at hx
    exact .inl ⟨h2, hx.symm⟩
  rw [if_neg h2] at hx
  right
  by_cases h3 : a = 0x0C
  · rw [if_pos h3] at hx
    exact .inl ⟨h3, hx.symm⟩
  rw [if_neg h3] at hx
  right
  by_cases h4 : a = 0x10
  · rw [if_pos h4] at hx
    exact .inl ⟨h4, hx.symm⟩
  rw [if_neg h4] at hx
  right
  by_cases h5 : a = 0x14
  · rw [if_pos h5] at hx
    exact .inl ⟨h5, hx.symm⟩
  rw [if_neg h5] at hx
  right
  by_cases h6 : a = 0x18
  · rw [if_pos h6] at hx
    exact .inl ⟨h6, hx.symm⟩
  rw [if_neg h6] at hx
  right
  by_cases h7 : 0x20 ≤ a ∧ a < 0x30
  · rw [if_pos h7] at hx
    exact .inl ⟨(a - 0x20) / 4, by omega, by omega, hx.symm⟩
  rw [if_neg h7] at hx
  right
  by_cases h8 : 0x30 ≤ a ∧ a < 0x40
  · rw [if_pos h8] at hx
    exact .inl ⟨(a - 0x30) / 4, by omega, by omega, hx.symm⟩
  rw [if_neg h8] at hx
  right
  by_cases h9 : 0x40 ≤ a ∧ a < 0x48
  · rw [if_pos h9] at hx
    exact .inl ⟨(a - 0x40) / 4, by omega, by omega, hx.symm⟩
  rw [if_neg h9] at hx
  right
  by_cases h10 : 0x60 ≤ a ∧ a < 0x80
  · rw [if_pos h10] at hx
    exact .inl ⟨(a - 0x60) / 4, by omega, by omega, hx.symm⟩
  rw [if_neg h10] at hx
  right
  by_cases h11 : mkBase ≤ a ∧ a < mkBase + P.mkMax
  · rw [if_pos h11] at hx
    exact .inl ⟨(a - mkBase) / 4, by omega, by omega, hx.symm⟩
  rw [if_neg h11] at hx
  right
  by_cases h12 : ibufBase ≤ a ∧ a < ibufBase + P.ibufMax
  · rw [if_pos h12] at hx
    exact .inl ⟨(a - ibufBase) / 4, by omega, by omega, hx.symm⟩
  rw [if_neg h12] at hx
  right
  by_cases h13 : obufBase ≤ a ∧ a < obufBase + P.obufMax
  · rw [if_pos h13] at hx
    exact .inl ⟨(a - obufBase) / 4, by omega, by omega, hx.symm⟩
  rw [if_neg h13] at hx
  right
  refine ⟨?_, hx.symm⟩
  omega

/-- The MK window's words (R53). -/
theorem locate_mk {P : Params} {k : Nat} (h : 4 * k < P.mkMax) : locate P (mkBase + 4 * k) = some (.mk k) := by
  unfold locate mkBase
  simp (disch := omega) only [if_neg]
  rw [if_pos (by omega)]
  congr 2
  omega

/-- The IBUF window's words (R53). -/
theorem locate_ibuf {P : Params} (hP : P.wellFormed = true) {k : Nat} (h : 4 * k < P.ibufMax) :
    locate P (ibufBase + 4 * k) = some (.ibuf k) := by
  have := P.mkMax_bounds hP
  unfold locate ibufBase mkBase
  simp (disch := omega) only [if_neg]
  rw [if_pos (by omega)]
  congr 2
  omega

/-- The OBUF window's words (R53). -/
theorem locate_obuf {P : Params} (hP : P.wellFormed = true) {k : Nat} (h : 4 * k < P.obufMax) :
    locate P (obufBase + 4 * k) = some (.obuf k) := by
  have := P.mkMax_bounds hP
  have := P.ibufMax_bounds hP
  unfold locate obufBase ibufBase mkBase
  simp (disch := omega) only [if_neg]
  rw [if_pos (by omega)]
  congr 2
  omega

/-- What an accepted write leaves: one of these and nothing else (R23, R32, R56, R57, R60, R62). -/
theorem busWrite_stored {P : Params} {addr v : Word} {size : Nat} {s t : State}
    (h : busWrite P addr size v s = .stored t) :
    (v.toNat ≤ P.mkMax ∧ t = { s.clearKeys with mklen := v }) ∨
    (v.toNat ≤ P.ibufMax ∧ t = { s with ilen := v }) ∨
    (∃ k < 4, t = { s with iv := setWordAt s.iv k v }) ∨
    (∃ k < 4, t = { s with blk := setWordAt s.blk k v }) ∨
    (∃ k < 8, t = { s with tag := setWordAt s.tag k v }) ∨
    (∃ k, 4 * k < P.mkMax ∧ t = { s.clearKeys with mkw := s.mkw.writeWord k v }) ∨
    (∃ k, 4 * k < P.ibufMax ∧ t = { s with ibufw := s.ibufw.writeWord k v }) := by
  unfold busWrite at h
  split at h
  · cases h
  · rename_i loc hloc
    obtain ⟨hal, -, hlo⟩ := target_eq_some.1 hloc
    have hc := locate_cases P addr.toNat hal
    rw [hlo] at hc
    simp only [Option.some.injEq, reduceCtorEq, and_false, or_false] at hc
    rcases hc with ⟨-, rfl⟩ | ⟨-, rfl⟩ | ⟨-, rfl⟩ | ⟨-, rfl⟩ | ⟨-, rfl⟩ | ⟨-, rfl⟩ | ⟨-, rfl⟩ | ⟨k, hk, -, rfl⟩ |
      ⟨k, hk, -, rfl⟩ | ⟨k, hk, -, rfl⟩ | ⟨k, hk, -, rfl⟩ | ⟨k, hk, -, rfl⟩ | ⟨k, hk, -, rfl⟩ | ⟨k, hk, -, rfl⟩
    all_goals simp only [Loc.write] at h
    all_goals try cases h
    · split at h
      · injection h with h; exact .inl ⟨‹_›, h.symm⟩
      · cases h
    · split at h
      · injection h with h; exact .inr (.inl ⟨‹_›, h.symm⟩)
      · cases h
    · exact .inr (.inr (.inl ⟨k, hk, rfl⟩))
    · exact .inr (.inr (.inr (.inl ⟨k, hk, rfl⟩)))
    · exact .inr (.inr (.inr (.inr (.inl ⟨k, hk, rfl⟩))))
    · exact .inr (.inr (.inr (.inr (.inr (.inl ⟨k, hk, rfl⟩)))))
    · exact .inr (.inr (.inr (.inr (.inr (.inr ⟨k, hk, rfl⟩)))))

/-- Only the accepted write to CMD starts a command, and the command word is its data (R81). -/
theorem busWrite_command {P : Params} {addr v w : Word} {size : Nat} {s : State} :
    busWrite P addr size v s = .command w ↔ addr = 0 ∧ size = 4 ∧ w = v := by
  constructor
  · intro h
    unfold busWrite at h
    split at h
    · cases h
    · rename_i loc hloc
      obtain ⟨hal, hsz, hlo⟩ := target_eq_some.1 hloc
      cases loc <;> simp only [Loc.write] at h
      case cmd =>
        injection h with h
        refine ⟨?_, hsz, h.symm⟩
        have hc := locate_cases P addr.toNat hal
        rw [hlo] at hc
        simp only [Option.some.injEq, reduceCtorEq, and_false, or_false, and_true, exists_const] at hc
        exact BitVec.eq_of_toNat_eq hc
      all_goals first | (split at h <;> cases h) | cases h
  · rintro ⟨rfl, rfl, rfl⟩
    rfl

end Sys2Proof.Machine
end

