-- ==== Sys2Proof/Laws/Bytes.lean ====
section
/-! SUPPORT. The laws of byte arrays and of the packing of words. -/

namespace Sys2Proof.Machine

@[simp] theorem getElem_xorBytes {n : Nat} (a b : Bytes n) (i : Nat) (h : i < n) :
    (xorBytes a b)[i] = a[i] ^^^ b[i] := by
  simp [xorBytes]

@[simp] theorem getElem_slice {m : Nat} (v : Bytes m) (start n : Nat) (hb : start + n ≤ m) (i : Nat) (h : i < n) :
    (slice v start n hb)[i] = v[start + i] := by
  simp [slice]

@[simp] theorem getElem_ofBytes (n : Nat) (l : List Byte) (i : Nat) (h : i < n) : (ofBytes n l)[i] = l.getD i 0 := by
  simp [ofBytes]

@[simp] theorem getElem_zeroBytes (n i : Nat) (h : i < n) : (zeroBytes n)[i] = 0 := by
  simp [zeroBytes]

/-- Exclusive or twice with the same bytes changes nothing (R128). -/
@[simp] theorem xorBytes_xorBytes_cancel {n : Nat} (a b : Bytes n) : xorBytes (xorBytes a b) b = a := by
  refine Vector.ext fun i hi => ?_
  simp

@[simp] theorem xorBytes_zeroBytes {n : Nat} (a : Bytes n) : xorBytes a (zeroBytes n) = a := by
  refine Vector.ext fun i hi => ?_
  simp

theorem getElem_join (l r : Half) (i : Nat) (h : i < 16) :
    (join l r)[i] = if h : i < 8 then l[i] else r[i - 8] := by
  simp [join]

@[simp] theorem left_join (l r : Half) : left (join l r) = l := by
  refine Vector.ext fun i hi => ?_
  simp [left, getElem_join, hi]

@[simp] theorem right_join (l r : Half) : right (join l r) = r := by
  refine Vector.ext fun i hi => ?_
  simp [right, getElem_join]

@[simp] theorem join_left_right (b : Block) : join (left b) (right b) = b := by
  refine Vector.ext fun i hi => ?_
  rw [getElem_join]
  split
  · simp [left]
  · simp [right, show 8 + (i - 8) = i by omega]

/-- On a sequence that is long enough, `ofBytes` copies its first `n` bytes. -/
theorem ofBytes_toList {n : Nat} {l : List Byte} (h : n ≤ l.length) : (ofBytes n l).toList = l.take n := by
  refine List.ext_getElem (by simp [h]) fun i h1 h2 => ?_
  have hi : i < n := by simpa using h1
  have hl : i < l.length := by omega
  simp [hl]

@[simp] theorem ofBytes_of_toList {n : Nat} (v : Bytes n) : ofBytes n v.toList = v := by
  refine Vector.ext fun i hi => ?_
  simp [hi]

theorem ofBytes_toList_append {n : Nat} (v : Bytes n) (l : List Byte) : ofBytes n (v.toList ++ l) = v := by
  refine Vector.ext fun i hi => ?_
  simp [List.getElem?_append, hi]

@[simp] theorem byteOf_wordOf_zero (a b c d : Byte) : byteOf (wordOf a b c d) 0 = a := by
  refine BitVec.eq_of_getLsbD_eq fun i hi => ?_
  have : i = 0 ∨ i = 1 ∨ i = 2 ∨ i = 3 ∨ i = 4 ∨ i = 5 ∨ i = 6 ∨ i = 7 := by omega
  rcases this with rfl | rfl | rfl | rfl | rfl | rfl | rfl | rfl <;> simp [byteOf, wordOf]

@[simp] theorem byteOf_wordOf_one (a b c d : Byte) : byteOf (wordOf a b c d) 1 = b := by
  refine BitVec.eq_of_getLsbD_eq fun i hi => ?_
  have : i = 0 ∨ i = 1 ∨ i = 2 ∨ i = 3 ∨ i = 4 ∨ i = 5 ∨ i = 6 ∨ i = 7 := by omega
  rcases this with rfl | rfl | rfl | rfl | rfl | rfl | rfl | rfl <;> simp [byteOf, wordOf]

@[simp] theorem byteOf_wordOf_two (a b c d : Byte) : byteOf (wordOf a b c d) 2 = c := by
  refine BitVec.eq_of_getLsbD_eq fun i hi => ?_
  have : i = 0 ∨ i = 1 ∨ i = 2 ∨ i = 3 ∨ i = 4 ∨ i = 5 ∨ i = 6 ∨ i = 7 := by omega
  rcases this with rfl | rfl | rfl | rfl | rfl | rfl | rfl | rfl <;> simp [byteOf, wordOf]

@[simp] theorem byteOf_wordOf_three (a b c d : Byte) : byteOf (wordOf a b c d) 3 = d := by
  refine BitVec.eq_of_getLsbD_eq fun i hi => ?_
  have : i = 0 ∨ i = 1 ∨ i = 2 ∨ i = 3 ∨ i = 4 ∨ i = 5 ∨ i = 6 ∨ i = 7 := by omega
  rcases this with rfl | rfl | rfl | rfl | rfl | rfl | rfl | rfl <;> simp [byteOf, wordOf]

/-- A word is its four bytes, lowest first (R55). -/
theorem wordOf_byteOf (w : Word) : wordOf (byteOf w 0) (byteOf w 1) (byteOf w 2) (byteOf w 3) = w := by
  refine BitVec.eq_of_getLsbD_eq fun i hi => ?_
  interval_cases i <;> simp [byteOf, wordOf]

/-- Word `k` of an array after word `k` is written is the written word (R55, R60). -/
theorem wordAt_setWordAt_self {n : Nat} (v : Bytes n) (k : Nat) (w : Word) (h : 4 * k + 4 ≤ n) :
    wordAt (setWordAt v k w) k = w := by
  have hb : ∀ j, j < 4 → byteAt (setWordAt v k w) (4 * k + j) = byteOf w j := fun j hj => by
    simp [byteAt, setWordAt, show 4 * k + j < n by omega, show (4 * k + j) / 4 = k by omega,
      show (4 * k + j) % 4 = j by omega]
  have h0 := hb 0 (by omega)
  rw [Nat.add_zero] at h0
  rw [wordAt, h0, hb 1 (by omega), hb 2 (by omega), hb 3 (by omega), wordOf_byteOf]

/-- The bytes outside a written word do not change (R55, R60). -/
theorem byteAt_setWordAt {n : Nat} (v : Bytes n) (k : Nat) (w : Word) (i : Nat) (hi : i < n) :
    byteAt (setWordAt v k w) i = if i / 4 = k then byteOf w (i % 4) else byteAt v i := by
  simp [byteAt, setWordAt, hi]

end Sys2Proof.Machine
end

