-- ==== Sys2Proof/Laws/Feistel.lean ====
section
/-! SUPPORT. The laws of one Feistel round and of the chaining step. -/

namespace Sys2Proof.Machine

@[simp] theorem split_unsplit (h : Halves) : split (unsplit h) = h := by
  simp [split, unsplit]

@[simp] theorem unsplit_split (b : Block) : unsplit (split b) = b := by
  simp [split, unsplit]

/-- A decryption round undoes the encryption round with the same key (R128). -/
@[simp] theorem decRound_encRound (P : Params) (k : RoundKey) (h : Halves) : decRound P k (encRound P k h) = h := by
  simp [decRound, encRound]

/-- An encryption round undoes the decryption round with the same key (R128). -/
@[simp] theorem encRound_decRound (P : Params) (k : RoundKey) (h : Halves) : encRound P k (decRound P k h) = h := by
  simp [decRound, encRound]

/-- The chaining step undoes itself (R128). -/
@[simp] theorem mixChaining_mixChaining (c : Option Chaining) (h : Halves) :
    mixChaining c (mixChaining c h) = h := by
  cases c <;> simp [mixChaining]

@[simp] theorem mixChaining_none (h : Halves) : mixChaining none h = h := rfl

theorem mixChaining_some (c : Chaining) (h : Halves) :
    mixChaining (some c) h = ⟨xorBytes h.l (slice c 0 8), h.r⟩ := rfl

end Sys2Proof.Machine
end

