-- ==== Sys2Proof/Laws/Memory.lean ====
section
/-! SUPPORT. The laws of a buffer: read after write, the canonical form, and what a whole output reads as. -/

namespace Sys2Proof.Machine

@[simp] theorem Memory.read_nil (a : Nat) : Memory.read [] a = 0 := rfl

theorem Memory.read_cons (c : Host.Cell) (m : Memory) (a : Nat) :
    Memory.read (c :: m) a = if c.1 = a then c.2 else Memory.read m a := rfl

/-- An index below every listed one reads 0x00. -/
theorem Memory.read_eq_zero_of_lt {m : Memory} {a : Nat} (h : ∀ c ∈ m, a < c.1) : Memory.read m a = 0 := by
  induction m with
  | nil => rfl
  | cons c rest ih =>
    have hc := h c (by simp)
    rw [Memory.read_cons, if_neg (by omega)]
    exact ih fun d hd => h d (by simp [hd])

@[simp] theorem Memory.wf_nil : Memory.wf [] := ⟨List.Pairwise.nil, by simp⟩

theorem Memory.wf_cons {c : Host.Cell} {m : Memory} :
    Memory.wf (c :: m) ↔ (∀ d ∈ m, c.1 < d.1) ∧ c.2 ≠ 0 ∧ Memory.wf m := by
  constructor
  · rintro ⟨hp, hz⟩
    rw [List.pairwise_cons] at hp
    exact ⟨hp.1, hz c (by simp), hp.2, fun d hd => hz d (by simp [hd])⟩
  · rintro ⟨hlt, hc, hp, hz⟩
    refine ⟨List.pairwise_cons.2 ⟨hlt, hp⟩, fun d hd => ?_⟩
    rcases List.mem_cons.1 hd with rfl | hd
    · exact hc
    · exact hz d hd

/-- A listed cell of a write is the written one or an old one. -/
theorem Memory.mem_write {m : Memory} {a : Nat} {b : Byte} {c : Host.Cell} (h : c ∈ Memory.write m a b) :
    (c = (a, b) ∧ b ≠ 0) ∨ c ∈ m := by
  induction m with
  | nil =>
    unfold Memory.write at h
    split at h <;> simp_all
  | cons d rest ih =>
    obtain ⟨x, v⟩ := d
    unfold Memory.write at h
    split at h
    · split at h
      · exact .inr h
      · rcases List.mem_cons.1 h with rfl | h
        · exact .inl ⟨rfl, ‹_›⟩
        · exact .inr h
    · split at h
      · split at h
        · exact .inr (List.mem_cons_of_mem _ h)
        · rcases List.mem_cons.1 h with rfl | h
          · exact .inl ⟨rfl, ‹_›⟩
          · exact .inr (List.mem_cons_of_mem _ h)
      · rcases List.mem_cons.1 h with rfl | h
        · exact .inr (by simp)
        · rcases ih h with h | h
          · exact .inl h
          · exact .inr (List.mem_cons_of_mem _ h)

/-- A write keeps the canonical form. -/
theorem Memory.wf_write {m : Memory} (hm : m.wf) (a : Nat) (b : Byte) : (m.write a b).wf := by
  induction m with
  | nil =>
    unfold Memory.write
    split
    · exact Memory.wf_nil
    · exact Memory.wf_cons.2 ⟨by simp, ‹_›, Memory.wf_nil⟩
  | cons d rest ih =>
    obtain ⟨x, v⟩ := d
    obtain ⟨hlt, hv, hrest⟩ := Memory.wf_cons.1 hm
    unfold Memory.write
    split
    · split
      · exact hm
      · refine Memory.wf_cons.2 ⟨fun c hc => ?_, ‹_›, hm⟩
        rcases List.mem_cons.1 hc with rfl | hc
        · assumption
        · have := hlt c hc
          simp only at *
          omega
    · split
      · split
        · exact hrest
        · subst_vars
          exact Memory.wf_cons.2 ⟨hlt, ‹_›, hrest⟩
      · refine Memory.wf_cons.2 ⟨fun c hc => ?_, hv, ih hrest⟩
        rcases Memory.mem_write hc with ⟨rfl, -⟩ | hc
        · simp only
          omega
        · exact hlt c hc

/-- Reading after a write: the written index gives the written byte, every other index what it gave before. -/
theorem Memory.read_write {m : Memory} (hm : m.wf) (a : Nat) (b : Byte) (i : Nat) :
    (m.write a b).read i = if i = a then b else m.read i := by
  induction m with
  | nil =>
    unfold Memory.write
    split <;> simp [Memory.read_cons, eq_comm, *]
  | cons d rest ih =>
    obtain ⟨x, v⟩ := d
    obtain ⟨hlt, hv, hrest⟩ := Memory.wf_cons.1 hm
    have hz : ∀ j, j ≤ x → Memory.read rest j = 0 := fun j hj =>
      Memory.read_eq_zero_of_lt fun c hc => Nat.lt_of_le_of_lt hj (hlt c hc)
    unfold Memory.write
    split
    · rename_i hax
      split
      · subst_vars
        rw [Memory.read_cons]
        by_cases hi : i = a
        · subst hi
          rw [if_neg (by simp only; omega), hz _ (by omega), if_pos rfl]
        · rw [if_neg hi]
      · rw [Memory.read_cons]
        by_cases hi : i = a
        · subst hi
          simp
        · rw [if_neg (by simp only; omega), if_neg hi]
    · split
      · subst_vars
        split
        · by_cases hi : i = x
          · subst hi
            simp [*]
          · rw [if_neg hi, Memory.read_cons, if_neg (by simp only; omega)]
        · rw [Memory.read_cons, Memory.read_cons]
          by_cases hi : i = x
          · subst hi
            simp
          · rw [if_neg (by simp only; omega), if_neg hi, if_neg (by simp only; omega)]
      · rw [Memory.read_cons, Memory.read_cons, ih hrest]
        by_cases hi : i = a
        · subst hi
          rw [if_neg (by simp only; omega), if_pos rfl, if_pos rfl]
        · simp [hi]

/-- Canonical buffers that read alike are equal. -/
theorem Memory.ext_read {m n : Memory} (hm : m.wf) (hn : n.wf) (h : ∀ a, m.read a = n.read a) : m = n := by
  induction m generalizing n with
  | nil =>
    cases n with
    | nil => rfl
    | cons d rest =>
      obtain ⟨-, hd, -⟩ := Memory.wf_cons.1 hn
      have := h d.1
      simp [Memory.read_cons] at this
      exact absurd this.symm hd
  | cons c rest ih =>
    obtain ⟨hclt, hc, hrest⟩ := Memory.wf_cons.1 hm
    cases n with
    | nil =>
      have := h c.1
      simp [Memory.read_cons] at this
      exact absurd this hc
    | cons d rest' =>
      obtain ⟨hdlt, hd, hrest'⟩ := Memory.wf_cons.1 hn
      have hcz : ∀ j, j ≤ c.1 → Memory.read rest j = 0 := fun j hj =>
        Memory.read_eq_zero_of_lt fun e he => Nat.lt_of_le_of_lt hj (hclt e he)
      have hdz : ∀ j, j ≤ d.1 → Memory.read rest' j = 0 := fun j hj =>
        Memory.read_eq_zero_of_lt fun e he => Nat.lt_of_le_of_lt hj (hdlt e he)
      have hcd : c.1 = d.1 := by
        rcases Nat.lt_trichotomy c.1 d.1 with hlt | heq | hgt
        · have := h c.1
          rw [Memory.read_cons, Memory.read_cons, if_pos rfl, if_neg (by omega), hdz _ (by omega)] at this
          exact absurd this hc
        · exact heq
        · have := h d.1
          rw [Memory.read_cons, Memory.read_cons, if_pos rfl, if_neg (by omega), hcz _ (by omega)] at this
          exact absurd this.symm hd
      have hval : c.2 = d.2 := by
        have := h c.1
        rwa [Memory.read_cons, Memory.read_cons, if_pos rfl, if_pos hcd.symm] at this
      have htail : rest = rest' := by
        refine ih hrest hrest' fun a => ?_
        by_cases ha : a ≤ c.1
        · rw [hcz a ha, hdz a (by omega)]
        · have := h a
          rwa [Memory.read_cons, Memory.read_cons, if_neg (by omega), if_neg (by omega)] at this
      rw [htail, Prod.ext hcd hval]

theorem Memory.mem_ofListFrom {l : List Byte} {k : Nat} {c : Host.Cell} (h : c ∈ Memory.ofListFrom k l) :
    k ≤ c.1 ∧ c.1 < k + l.length ∧ c.2 ≠ 0 := by
  induction l generalizing k with
  | nil => simp [Memory.ofListFrom] at h
  | cons b rest ih =>
    have step : c ∈ Memory.ofListFrom (k + 1) rest → k ≤ c.1 ∧ c.1 < k + (b :: rest).length ∧ c.2 ≠ 0 := fun h => by
      obtain ⟨h1, h2, h3⟩ := ih h
      exact ⟨by omega, by simp only [List.length_cons]; omega, h3⟩
    unfold Memory.ofListFrom at h
    split at h
    · exact step h
    · rcases List.mem_cons.1 h with rfl | h
      · exact ⟨Nat.le_refl _, by simp, ‹_›⟩
      · exact step h

theorem Memory.wf_ofListFrom (l : List Byte) (k : Nat) : (Memory.ofListFrom k l).wf := by
  induction l generalizing k with
  | nil => exact Memory.wf_nil
  | cons b rest ih =>
    unfold Memory.ofListFrom
    split
    · exact ih _
    · exact Memory.wf_cons.2 ⟨fun c hc => (Memory.mem_ofListFrom hc).1, ‹_›, ih _⟩

/-- The buffer of a byte sequence is in canonical form. -/
theorem Memory.wf_ofList (l : List Byte) : (Memory.ofList l).wf := Memory.wf_ofListFrom l 0

theorem Memory.read_ofListFrom (l : List Byte) (k a : Nat) :
    (Memory.ofListFrom k l).read (k + a) = l.getD a 0 := by
  induction l generalizing k a with
  | nil => simp [Memory.ofListFrom]
  | cons b rest ih =>
    unfold Memory.ofListFrom
    cases a with
    | zero =>
      split
      · subst_vars
        have h0 : Memory.read (Memory.ofListFrom (k + 1) rest) k = 0 :=
          Memory.read_eq_zero_of_lt fun c hc => (Memory.mem_ofListFrom hc).1
        exact h0
      · simp [Memory.read_cons]
    | succ a =>
      have := ih (k + 1) a
      rw [show k + 1 + a = k + (a + 1) by omega] at this
      split
      · simpa using this
      · rw [Memory.read_cons, if_neg (by simp), this]
        simp

/-- The buffer of a byte sequence reads as the sequence, and 0x00 from its end on (R29). -/
theorem Memory.read_ofList (l : List Byte) (a : Nat) : (Memory.ofList l).read a = l.getD a 0 := by
  have := Memory.read_ofListFrom l 0 a
  rwa [Nat.zero_add] at this

@[simp] theorem Memory.length_firstBytes (m : Memory) (n : Nat) : (m.firstBytes n).length = n := by
  simp [Memory.firstBytes]

@[simp] theorem Memory.firstBytes_zero (m : Memory) : m.firstBytes 0 = [] := rfl

theorem Memory.getElem_firstBytes (m : Memory) (n i : Nat) (h : i < (m.firstBytes n).length) :
    (m.firstBytes n)[i] = m.read i := by
  simp [Memory.firstBytes]

/-- Buffers that read alike below `n` have the same first `n` bytes. -/
theorem Memory.firstBytes_congr {m m' : Memory} {n : Nat} (h : ∀ i, i < n → m.read i = m'.read i) :
    m.firstBytes n = m'.firstBytes n := by
  simp only [Memory.firstBytes]
  exact List.map_congr_left fun i hi => h i (List.mem_range.1 hi)

/-- The first `n` bytes are a sequence of length `n` when the buffer reads as it. -/
theorem Memory.firstBytes_eq {m : Memory} {l : List Byte} (h : ∀ i, i < l.length → m.read i = l.getD i 0) :
    m.firstBytes l.length = l := by
  refine List.ext_getElem (by simp) fun i h1 h2 => ?_
  rw [Memory.getElem_firstBytes, h i h2]
  simp [List.getD, h2]

@[simp] theorem Memory.firstBytes_ofList (l : List Byte) : (Memory.ofList l).firstBytes l.length = l :=
  Memory.firstBytes_eq fun i _ => Memory.read_ofList l i

/-- A word write keeps the canonical form. -/
theorem Memory.wf_writeWord {m : Memory} (hm : m.wf) (k : Nat) (w : Word) : (m.writeWord k w).wf :=
  Memory.wf_write (Memory.wf_write (Memory.wf_write (Memory.wf_write hm _ _) _ _) _ _) _ _

/-- A word write sets bytes 4k to 4k+3 and no others (R55). -/
theorem Memory.read_writeWord {m : Memory} (hm : m.wf) (k : Nat) (w : Word) (i : Nat) :
    (m.writeWord k w).read i = if i / 4 = k then byteOf w (i % 4) else m.read i := by
  unfold Memory.writeWord
  rw [Memory.read_write (Memory.wf_write (Memory.wf_write (Memory.wf_write hm _ _) _ _) _ _),
    Memory.read_write (Memory.wf_write (Memory.wf_write hm _ _) _ _),
    Memory.read_write (Memory.wf_write hm _ _), Memory.read_write hm]
  by_cases hk : i / 4 = k
  · rw [if_pos hk]
    have hi : i = 4 * k + i % 4 := by omega
    have : i % 4 = 0 ∨ i % 4 = 1 ∨ i % 4 = 2 ∨ i % 4 = 3 := by omega
    rcases this with h | h | h | h <;> rw [h] at hi ⊢ <;> simp [hi]
  · rw [if_neg hk, if_neg (by omega), if_neg (by omega), if_neg (by omega), if_neg (by omega)]

/-- Every listed cell of a word write is an old one or lies in the word. -/
theorem Memory.mem_writeWord {m : Memory} {k : Nat} {w : Word} {c : Host.Cell} (h : c ∈ m.writeWord k w) :
    c ∈ m ∨ c.1 / 4 = k := by
  unfold Memory.writeWord at h
  rcases Memory.mem_write h with ⟨rfl, -⟩ | h
  · right; simp only; omega
  rcases Memory.mem_write h with ⟨rfl, -⟩ | h
  · right; simp only; omega
  rcases Memory.mem_write h with ⟨rfl, -⟩ | h
  · right; simp only; omega
  rcases Memory.mem_write h with ⟨rfl, -⟩ | h
  · right; simp only; omega
  exact .inl h

end Sys2Proof.Machine
end

