-- ==== Sys2Proof/Laws/Ops.lean ====
section
/-! SUPPORT. What the shared operations do, said once: `SetOut` and the delivery of a result, the status word's parts, the lengths
of the cipher's values. -/

namespace Sys2Proof.Machine

@[simp] theorem toNat_zext32 (n : Nat) : (zext32 n).toNat = n % 2 ^ 32 := by
  simp [zext32]

/-- The key has MKLEN bytes (R22). -/
@[simp] theorem State.length_keyBytes (s : State) : s.keyBytes.length = s.mklen.toNat := by
  simp [State.keyBytes]

/-- The input has ILEN bytes (R28). -/
@[simp] theorem State.length_ibuf (s : State) : s.ibuf.length = s.ilen.toNat := by
  simp [State.ibuf]

/-- The output has OLEN bytes (R29). -/
@[simp] theorem State.length_obuf (s : State) : s.obuf.length = s.olen.toNat := by
  simp [State.obuf]

/-- The key is empty exactly when MKLEN is 0 (R22). -/
theorem State.keyBytes_eq_nil (s : State) : s.keyBytes = [] ↔ s.mklen = 0 := by
  rw [← List.length_eq_zero_iff, State.length_keyBytes]
  constructor
  · intro h
    exact BitVec.eq_of_toNat_eq h
  · rintro h
    simp [h]

/-- After `SetOut(X)` every byte of OBUFW reads as `X`, and 0x00 from its end on (R29). -/
theorem State.read_setOut (x : List Byte) (s : State) (a : Nat) : (s.setOut x).obufw.read a = x.getD a 0 := by
  simp [Memory.read_ofList]

/-- After `SetOut(X)` the output is `X`, for every `X` that fits 32-bit lengths (R29). -/
theorem State.obuf_setOut {x : List Byte} (s : State) (h : x.length < 2 ^ 32) : (s.setOut x).obuf = x := by
  rw [State.obuf, State.setOut_obufw, State.setOut_olen, toNat_zext32, Nat.mod_eq_of_lt h,
    Memory.firstBytes_ofList]

/-- `SetOut([])` leaves the whole buffer zero and OLEN 0 (R29). -/
theorem State.setOut_nil (s : State) : s.setOut [] = { s with obufw := [], olen := 0 } := rfl

@[simp] theorem length_padBytes (d : List Byte) : (padBytes d).length = d.length + padLength d.length := by
  simp [padBytes]

theorem padLength_bounds (n : Nat) : 1 ≤ padLength n ∧ padLength n ≤ 16 ∧ (n + padLength n) % 16 = 0 := by
  unfold padLength
  omega

/-- `Unpad` fails only with InvalidPadding, and a result is shorter than its input (R140, R142). -/
theorem unpadBytes_cases (e : List Byte) :
    unpadBytes e = .error .invalidPadding ∨ ∃ u, unpadBytes e = .ok u ∧ u.length < e.length := by
  unfold unpadBytes
  split
  · exact .inl rfl
  · rename_i b hb
    have hpos : 0 < e.length := by
      cases e with
      | nil => simp at hb
      | cons => simp
    split
    · exact .inl rfl
    · split
      · exact .inl rfl
      · split
        · exact .inl rfl
        · exact .inr ⟨_, rfl, by rw [List.length_take]; omega⟩

theorem length_flatMap_blocks (f : Nat → Block) (m : Nat) :
    ((List.range m).flatMap fun i => (f i).toList).length = 16 * m := by
  induction m with
  | zero => rfl
  | succ m ih => simp [List.range_succ, ih]; omega

@[simp] theorem length_encBlocks (P : Params) (k : RoundKeys) (iv : Chaining) (q : List Byte) :
    (encBlocks P k iv q).length = 16 * (q.length / 16) := length_flatMap_blocks _ _

@[simp] theorem length_decBlocks (P : Params) (k : RoundKeys) (iv : Chaining) (q : List Byte) :
    (decBlocks P k iv q).length = 16 * (q.length / 16) := length_flatMap_blocks _ _

@[simp] theorem length_sealedBody (P : Params) (key plain : List Byte) (iv : Chaining) :
    (sealedBody P key plain iv).length = 16 + 16 * (plain.length / 16 + 1) := by
  have := padLength_bounds plain.length
  simp [sealedBody]
  omega

end Sys2Proof.Machine
end

