-- ==== Sys2Proof/Laws/PerInstr.lean ====
section
/-! SUPPORT. Families of statements made per command. `EncodedWordOk`: the word of a command passes the check of
R80 and R85 that is written apart from the encoder. -/

namespace Sys2Proof.Laws.EncodedWordOk

/-- The command's word is a well-formed command word (R80, R85). -/
def Statement (i : Instr) : Prop := commandWordOk (encode i) = true

theorem ksderive : Statement .ksderive := by unfold Statement; decide
theorem fround (r : Fin 16) : Statement (.fround r) := by unfold Statement; revert r; decide
theorem encblk : Statement .encblk := by unfold Statement; decide
theorem encblkc : Statement .encblkc := by unfold Statement; decide
theorem decblk : Statement .decblk := by unfold Statement; decide
theorem decblkc : Statement .decblkc := by unfold Statement; decide
theorem pad : Statement .pad := by unfold Statement; decide
theorem unpad : Statement .unpad := by unfold Statement; decide
theorem taggen : Statement .taggen := by unfold Statement; decide
theorem tagvfy : Statement .tagvfy := by unfold Statement; decide
theorem encrypt : Statement .encrypt := by unfold Statement; decide
theorem decrypt : Statement .decrypt := by unfold Statement; decide
theorem zeroize : Statement .zeroize := by unfold Statement; decide

end Sys2Proof.Laws.EncodedWordOk
end

