-- ==== Sys2Proof/Laws/Step.lean ====
section
/-! SUPPORT. What one step can do, said once (R52, R81, R220, R221). -/

namespace Sys2Proof.Machine

theorem step_idle {s : State} (h : s.host = []) : step s = .next s := by
  simp [step, h]

theorem step_reset {s : State} {rest : List HostMove} (h : s.host = .reset :: rest) :
    step s = .next (s.resetCore rest) := by
  simp [step, h]

theorem step_read {s : State} {addr : Word} {size : Nat} {rest : List HostMove}
    (h : s.host = .read addr size :: rest) :
    step s = .next (s.answer rest (busRead Config.params addr size s)) := by
  simp [step, h]

theorem step_refused {s : State} {addr v : Word} {size : Nat} {rest : List HostMove}
    (h : s.host = .write addr size v :: rest) (hw : busWrite Config.params addr size v s = .refused) :
    step s = .next (s.answer rest .writeRefused) := by
  simp [step, h, hw]

theorem step_stored {s t : State} {addr v : Word} {size : Nat} {rest : List HostMove}
    (h : s.host = .write addr size v :: rest) (hw : busWrite Config.params addr size v s = .stored t) :
    step s = .next (t.answer rest .writeDone) := by
  simp [step, h, hw]

theorem step_command {s : State} {w : Word} {rest : List HostMove} (h : s.host = .write 0 4 w :: rest) :
    step s = runCommand w (s.answer rest .writeDone) := by
  have hw : busWrite Config.params 0 4 w s = .command w := busWrite_command.2 ⟨rfl, rfl, rfl⟩
  simp only [step, h, hw]

theorem runCommand_of_command {w : Word} {i : Instr} (s : State) (h : decode w = .command i) :
    runCommand w s = exec i s := by
  simp [runCommand, h]

theorem runCommand_of_reserved {w : Word} {why : Reserved} (s : State) (h : decode w = .reserved why) :
    runCommand w s = .next (s.raiseFault .illegalCommand) := by
  simp [runCommand, h]

/-- The one inversion of a step: it idles, resets, answers a read, refuses a write, stores a write, runs a command, or
ends a reserved word. -/
theorem step_cases {s t : State} (h : step s = .next t) :
    (s.host = [] ∧ t = s) ∨
    (∃ rest, s.host = .reset :: rest ∧ t = s.resetCore rest) ∨
    (∃ addr size rest, s.host = .read addr size :: rest ∧ t = s.answer rest (busRead Config.params addr size s)) ∨
    (∃ addr size v rest, s.host = .write addr size v :: rest ∧ t = s.answer rest .writeRefused ∧
      busWrite Config.params addr size v s = .refused) ∨
    (∃ addr size v rest u, s.host = .write addr size v :: rest ∧ t = u.answer rest .writeDone ∧
      busWrite Config.params addr size v s = .stored u) ∨
    (∃ w rest i, s.host = .write 0 4 w :: rest ∧ decode w = .command i ∧
      exec i (s.answer rest .writeDone) = .next t) ∨
    (∃ w rest why, s.host = .write 0 4 w :: rest ∧ decode w = .reserved why ∧
      t = (s.answer rest .writeDone).raiseFault .illegalCommand) := by
  rcases hh : s.host with _ | ⟨_ | _ | _, rest⟩
  · rw [step_idle hh] at h
    cases h
    exact .inl ⟨rfl, rfl⟩
  · rename_i addr size
    rw [step_read hh] at h
    cases h
    exact .inr (.inr (.inl ⟨addr, size, rest, rfl, rfl⟩))
  · rename_i addr size v
    cases hw : busWrite Config.params addr size v s with
    | refused =>
      rw [step_refused hh hw] at h
      cases h
      exact .inr (.inr (.inr (.inl ⟨addr, size, v, rest, rfl, rfl, hw⟩)))
    | stored u =>
      rw [step_stored hh hw] at h
      cases h
      exact .inr (.inr (.inr (.inr (.inl ⟨addr, size, v, rest, u, rfl, rfl, hw⟩))))
    | command w =>
      obtain ⟨rfl, rfl, rfl⟩ := busWrite_command.1 hw
      rw [step_command hh] at h
      cases hd : decode w with
      | command i =>
        rw [runCommand_of_command _ hd] at h
        exact .inr (.inr (.inr (.inr (.inr (.inl ⟨w, rest, i, rfl, hd, h⟩)))))
      | reserved why =>
        rw [runCommand_of_reserved _ hd] at h
        cases h
        exact .inr (.inr (.inr (.inr (.inr (.inr ⟨w, rest, why, rfl, hd, rfl⟩)))))
  · rw [step_reset hh] at h
    cases h
    exact .inr (.inl ⟨rest, rfl, rfl⟩)

end Sys2Proof.Machine
end

