-- ==== Sys2Proof/Tests/Slice0.lean ====
section
/-! SUPPORT. Tests. Every expected value is copied from spec/95_test_vectors.md (entries T1 to T16) or from a rule's own
worked example; the functions of the test instantiation are entry T1's, which is not the hardware's hash. The last part gives, for each statement
with hypotheses, a state and operands that meet them. -/

namespace Sys2Proof.Tests

open Sys2Proof.Machine

/-! ## The test instantiation (entry T1) -/

/-- One mixing step of H_T. -/
def mix (s : BitVec 32) (b : BitVec 32) : BitVec 32 := (s ^^^ b) * 0x01000193

/-- The output loop of H_T from step `j` on, `n` steps. -/
def squeeze (n j : Nat) (s : BitVec 32) : List Byte :=
  match n with
  | 0 => []
  | n + 1 => (mix s (BitVec.ofNat 32 j) >>> 24).setWidth 8 :: squeeze n (j + 1) (mix s (BitVec.ofNat 32 j))

/-- H_T (entry T1). -/
def hT (m : List Byte) : Digest :=
  ofBytes 32 (squeeze 32 0 (m.foldl (fun s b => mix s (b.setWidth 32)) 0x811C9DC5))

/-- The test instantiation of T1 and the programs' capacities (MK_MAX = 64, IBUF_MAX = 256), with `iv0` at the entropy
input. -/
def testP : Params where
  hash := hT
  keyedHash := fun k d => hT (0x36 :: ((hT k).toList ++ d))
  macKeyOf := fun k => k
  rnd := fun _ => 0x0f0e0d0c0b0a09080706050403020100
  mkMax := 64
  ibufMax := 256

/-- `n` bytes from the spec's hexadecimal writing, first byte first (R12). -/
def hex (n v : Nat) : Bytes n := Vector.ofFn fun i => BitVec.ofNat 8 (v / 256 ^ (n - 1 - i.val))

/-- `"testkey"`. -/
def testkey : List Byte := (hex 7 0x746573746b6579).toList

/-- `iv0`. -/
def iv0 : Chaining := hex 16 0x000102030405060708090a0b0c0d0e0f

/-- The round keys of `"testkey"`. -/
def testKeys : RoundKeys := keyChain testP testkey

/-- `A*16`. -/
def a16 : Block := hex 16 0x41414141414141414141414141414141

/-- `MK = "testkey"`, loaded and derived, `BLK = A*16`, `IV = iv0`. -/
def ready : State :=
  { State.reset with mkw := Memory.ofList testkey, mklen := 7, rk := testKeys, rkv := true, blk := a16, iv := iv0 }

/-- `MK = "testkey"` and an input loaded. -/
def loaded (x : List Byte) : State :=
  { State.reset with
    mkw := Memory.ofList testkey, mklen := 7, ibufw := Memory.ofList x, ilen := zext32 x.length }

/-- The next state of an outcome, if there is one. -/
def nextOf (o : Host.Outcome State Fault Refusal) : Option State :=
  match o with
  | .next s => some s
  | _ => none

theorem test_hash_of_empty :
    hT [] = hex 32 0x051022c3bae8e46b0a2f464a51a78dc86ffb07785a1a1284b866f233617a4b09 := by decide +kernel

/-! ## Family 1 (entry T3) -/

theorem test_derive_first_key :
    testKeys[0] = hex 32 0xb8fdd042891267a58665c29acd3a15044df44d37230ecb2e5a0afcc755c4ec97 := by decide +kernel

theorem test_derive_last_key :
    testKeys[15] = hex 32 0x952082e2a7dd134546dc803b384f39194ce2358586ce4a7268343f5ca7118163 := by decide +kernel

/-! ## Family 2 (entry T4) -/

theorem test_fround_15 : (fround testP 15 ready).fo = hex 8 0x86e806983d89f606 := by decide +kernel

/-! ## Family 3 (entries T5, T6) -/

theorem test_encblk : (encblk testP ready).blk = hex 16 0xfff1211dd83933bb8e9af4293144d387 := by decide +kernel

theorem test_encblkc : (encblkc testP ready).blk = hex 16 0x519f87130ebec2db18549a7b7f5b402f := by decide +kernel

theorem test_decblk : (decblk testP ready).blk = hex 16 0xcc4202cc8195fde3e318538c7438515a := by decide +kernel

theorem test_decblkc : (decblkc testP ready).blk = hex 16 0xcc4300cf8590fbe4e318538c7438515a := by decide +kernel

/-! ## Family 6 (entries T10, T12, T13) -/

/-- The 80 bytes of entry T10. -/
def scenarioA : List Byte :=
  iv0.toList ++ (hex 16 0x519f87130ebec2db18549a7b7f5b402f).toList ++
    (hex 16 0xf6af1b41451b0a83c558094f6756e492).toList ++
    (hex 32 0xa1645a3e2e9c8ccaf9f836f5c327a4d8133b9fc6ab9cf4e85671f81a120c8cfb).toList

theorem test_encrypt_scenario_A : (encrypt testP (loaded a16.toList)).obuf = scenarioA := by decide +kernel

theorem test_decrypt_scenario_A :
    (decrypt testP (loaded scenarioA)).obuf = a16.toList ∧ (decrypt testP (loaded scenarioA)).err = .success := by
  decide +kernel

/-! ## Decoding (entry T15): each command's word written out from R80 and R84 -/

theorem test_decode_key_schedule : decode 0x00000001 = .command .ksderive := by decide

/-- `0000 0000 0000 0000 0000 | 1111 | 0000 0010`: bits 31:12 zero, `r = 15`, `op = 0x02`. -/
theorem test_decode_round_function :
    decode 0b00000000000000000000111100000010#32 = .command (.fround 15) ∧
    decode 0b00000000000000000000011100000010#32 = .command (.fround 7) ∧
    decode 0b00000000000000000000000000000010#32 = .command (.fround 0) := by decide

theorem test_decode_feistel_core :
    decode 0x00000003 = .command .encblk ∧ decode 0x00000004 = .command .encblkc ∧
    decode 0x00000005 = .command .decblk ∧ decode 0x00000006 = .command .decblkc := by decide

theorem test_decode_padder :
    decode 0x00000007 = .command .pad ∧ decode 0x00000008 = .command .unpad := by decide

theorem test_decode_authenticator :
    decode 0x00000009 = .command .taggen ∧ decode 0x0000000A = .command .tagvfy := by decide

theorem test_decode_block_processor :
    decode 0x0000000B = .command .encrypt ∧ decode 0x0000000C = .command .decrypt := by decide

theorem test_decode_housekeeping : decode 0x0000000D = .command .zeroize := by decide

theorem test_decode_reserved :
    decode 0x00000000 = .reserved .opcode ∧ decode 0x0000000E = .reserved .opcode ∧
    decode 0x000000FF = .reserved .opcode ∧ decode 0x00000103 = .reserved .indexBits ∧
    decode 0x00001002 = .reserved .highBits ∧ decode 0x8000000B = .reserved .highBits ∧
    decode 0xFFFFFFFF = .reserved .highBits := by decide

theorem test_decode_table_word :
    decodeTableWord 32 0xF02 = some (.fround 15) ∧ decodeTableWord 8 0x0D = some .zeroize ∧
    decodeTableWord 32 0x103 = none := by decide

/-! ## Well-formedness: each check refuses an ill-formed term, and its neighbours pass -/

theorem test_wellformed_high_bits : commandWordOk 0x00001002 = false ∧ commandWordOk 0x00000002 = true := by decide

theorem test_wellformed_index_bits : commandWordOk 0x00000103 = false ∧ commandWordOk 0x00000F02 = true := by decide

theorem test_wellformed_opcode :
    commandWordOk 0x00000000 = false ∧ commandWordOk 0x0000000E = false ∧ commandWordOk 0x00000001 = true ∧
    commandWordOk 0x0000000D = true := by decide

theorem test_wellformed_mk_max :
    (({ testP with mkMax := 6 } : Params).mkMaxOk = false) ∧ ({ testP with mkMax := 0 } : Params).mkMaxOk = false ∧
    ({ testP with mkMax := 65540 } : Params).mkMaxOk = false ∧ ({ testP with mkMax := 65536 } : Params).mkMaxOk = true := by
  decide

theorem test_wellformed_ibuf_max :
    ({ testP with ibufMax := 66 } : Params).ibufMaxOk = false ∧ ({ testP with ibufMax := 60 } : Params).ibufMaxOk = false ∧
    ({ testP with ibufMax := 0x0FFFFFC4 } : Params).ibufMaxOk = false ∧
    ({ testP with ibufMax := 0x0FFFFFC0 } : Params).ibufMaxOk = true := by decide

theorem test_wellformed_params :
    testP.wellFormed = true ∧ ({ testP with mkMax := 2 } : Params).wellFormed = false ∧
    ({ testP with ibufMax := 4 } : Params).wellFormed = false := by decide

/-! ## Endings and the other commands (R196, entries T7 to T13, R182) -/

/-- KSDERIVE with no key (R196): ERR 1, RKV 0. -/
theorem test_ksderive_empty_key :
    (ksderive testP ready).rkv = true ∧
    (ksderive testP { ready with mklen := 0 }).rkv = false ∧
    (ksderive testP { ready with mklen := 0 }).err.code = 1 := by decide +kernel

/-- Program P5: FROUND and ENCBLK before KSDERIVE end with ERR 6. -/
theorem test_operand_not_ready :
    (fround testP 3 { ready with rkv := false }).err.code = 6 ∧
    (encblk testP { ready with rkv := false }).blk = a16 ∧
    (encblk testP { ready with rkv := false }).err.code = 6 := by decide +kernel

/-- Entry T7, `"hello"`. -/
theorem test_pad_hello :
    padBytes (hex 5 0x68656c6c6f).toList = (hex 16 0x68656c6c6f0b0b0b0b0b0b0b0b0b0b0b).toList := by decide

/-- Entry T7, lengths 16 and 15. -/
theorem test_pad_edges :
    padBytes (hex 16 0x6162636465666768696a6b6c6d6e6f70).toList =
      (hex 32 0x6162636465666768696a6b6c6d6e6f7010101010101010101010101010101010).toList ∧
    padBytes (hex 15 0x6162636465666768696a6b6c6d6e6f).toList =
      (hex 16 0x6162636465666768696a6b6c6d6e6f01).toList := by decide

/-- Entry T8, the rows that fail. -/
theorem test_unpad_fails :
    unpadBytes [] = .error .invalidPadding ∧
    unpadBytes (hex 16 0x41414141414141414141414141414100).toList = .error .invalidPadding ∧
    unpadBytes (hex 16 0x41414141414141414141414141414111).toList = .error .invalidPadding ∧
    unpadBytes (hex 16 0x41414141414141414141414141030203).toList = .error .invalidPadding ∧
    unpadBytes (hex 16 0x1010101010101010101010101010100f).toList = .error .invalidPadding ∧
    unpadBytes [2] = .error .invalidPadding := by decide

/-- Entry T8, rows that succeed. -/
theorem test_unpad_succeeds :
    unpadBytes (hex 16 0x68656c6c6f0b0b0b0b0b0b0b0b0b0b0b).toList = .ok (hex 5 0x68656c6c6f).toList ∧
    unpadBytes (List.replicate 16 0x10) = .ok [] ∧
    unpadBytes (List.replicate 16 3) = .ok (List.replicate 13 3) ∧
    unpadBytes [1] = .ok [] ∧ unpadBytes [2, 2] = .ok [] := by decide

/-- `"abc"` loaded (entry T9). -/
def abc : State := loaded (hex 3 0x616263).toList

/-- Entry T9's tag of `"abc"` under `"testkey"`. -/
def abcTag : Digest := hex 32 0x0b9b70a7a07de2621dc37c14bed567a26d11f531817e9a94c8c38f20c8222449

theorem test_taggen :
    (taggen testP abc).tag = abcTag ∧ (taggen testP { abc with mklen := 0 }).err.code = 1 := by decide +kernel

theorem test_tagvfy :
    (tagvfy testP { abc with tag := abcTag }).err.code = 0 ∧
    (tagvfy testP { abc with tag := abcTag.set 31 0x48 }).err.code = 3 ∧
    (tagvfy testP { abc with mklen := 0 }).err.code = 1 := by decide +kernel

/-- Entry T11: scenario B. -/
theorem test_encrypt_scenario_B :
    (encrypt testP (loaded [])).obuf = iv0.toList ++ (hex 16 0xa58238fb7e14ea104bfcedaf15977870).toList ++
      (hex 32 0x64baefb12a6b10edec583e25f111db270e70c6351b11fff160bf1ad8359f23a7).toList := by decide +kernel

/-- Entries T12 and T13: scenario C; the lengths 40 and 49; the 48-byte input with a right tag; the empty key first. -/
theorem test_decrypt_errors :
    decryptMessage testP testkey (scenarioA.set 79 0xfa) = .error .integrityFailure ∧
    decryptMessage testP testkey (List.replicate 40 0) = .error .truncatedInput ∧
    decryptMessage testP testkey (List.replicate 49 0) = .error .truncatedInput ∧
    decryptMessage testP testkey (iv0.toList ++
      (hex 32 0xccfd8d7f62e154347650c21df65c924ebae66360cef88281665fcdf80f4c5557).toList) = .error .invalidPadding ∧
    decryptMessage testP [] (List.replicate 40 0) = .error .emptyKey := by decide +kernel

/-- Entry T12: nothing of a failed DECRYPT is left in the output, and key and input are gone. -/
theorem test_decrypt_failure_scrubs :
    (decrypt testP { loaded (scenarioA.set 79 0xfa) with obufw := [(0, 7)], olen := 1 }).obufw = [] ∧
    (decrypt testP (loaded (scenarioA.set 79 0xfa))).mkw = [] ∧
    (decrypt testP (loaded (scenarioA.set 79 0xfa))).ibufw = [] := by decide +kernel

/-- R182 (a) and (c): ZEROIZE clears the operand registers and the reset state stays as it is. -/
theorem test_zeroize : zeroize State.reset = State.reset ∧ (zeroize { ready with fo := hex 8 0xff }).fo = zeroBytes 8 := by
  decide +kernel

/-! ## Buffers -/

/-- A write of 0x00 removes the entry, so that equal buffers are equal lists. -/
theorem test_memory_canonical :
    Memory.write (Memory.write [] 5 7) 5 0 = [] ∧
    Memory.write (Memory.write [] 5 7) 2 9 = [(2, 9), (5, 7)] := by decide

/-! ## The bus (entry T16) -/

/-- The state that a write leaves. -/
def storedOf (w : WriteEffect) : State :=
  match w with
  | .stored s => s
  | .refused | .command _ => State.reset

theorem test_write_key_window :
    (storedOf (busWrite testP 0x00010000 4 0x74736574 ready)).mkw.firstBytes 4 = (hex 4 0x74657374).toList ∧
    (storedOf (busWrite testP 0x00010000 4 0x74736574 ready)).rkv = false ∧
    busRead testP 0x00010000 4 ready = .readDone 0 := by decide +kernel

theorem test_write_iv_word :
    (storedOf (busWrite testP 0x20 4 0x03020100 State.reset)).iv = hex 16 0x00010203000000000000000000000000 := by
  decide +kernel

theorem test_read_fo :
    busRead testP 0x40 4 { State.reset with fo := hex 8 0x81d19dce290e1042 } = .readDone 0xCE9DD181 ∧
    busRead testP 0x44 4 { State.reset with fo := hex 8 0x81d19dce290e1042 } = .readDone 0x42100E29 := by decide

theorem test_read_output :
    busRead testP 0x20000004 4 ((State.reset).setOut (hex 5 0x68656c6c6f).toList) = .readDone 0x0000006F := by
  decide +kernel

theorem test_bus_errors :
    busWrite testP 0x0A 4 0 State.reset = .refused ∧ busWrite testP 0x04 4 0 State.reset = .refused ∧
    busWrite testP 0x1C 4 0 State.reset = .refused ∧ busRead testP 0x48 4 State.reset = .readRefused ∧
    busWrite testP 0x0C 4 257 State.reset = .refused ∧ busRead testP 0x04 2 State.reset = .readRefused ∧
    busWrite testP 0x08 4 64 State.reset = .stored { State.reset with mklen := 64 } ∧
    busRead testP 0x00 4 State.reset = .readDone 0 := by decide +kernel

/-- The edges of the windows under the test capacities: the last word of each is reached, the next one is reserved. -/
theorem test_window_edges :
    locate testP 0x18 = some .capIbuf ∧ locate testP 0x1C = none ∧ locate testP 0x44 = some (.fo 1) ∧
    locate testP 0x48 = none ∧ locate testP 0x5C = none ∧ locate testP 0x7C = some (.tag 7) ∧ locate testP 0x80 = none ∧
    locate testP 0x1003C = some (.mk 15) ∧ locate testP 0x10040 = none ∧
    locate testP 0x100000FC = some (.ibuf 63) ∧ locate testP 0x10000100 = none ∧
    locate testP 0x2000013C = some (.obuf 79) ∧ locate testP 0x20000140 = none := by decide

/-- R55's example. -/
theorem test_packing :
    busRead testP 0x20 4 { State.reset with iv := iv0 } = .readDone 0x03020100 ∧
    busRead testP 0x2C 4 { State.reset with iv := iv0 } = .readDone 0x0F0E0D0C := by decide

theorem test_packed_word : packedWord testkey 0 = 0x74736574 ∧ packedWord testkey 1 = 0x0079656B := by decide

/-- Program P5: STATUS with RKV 1 and ERR 0, and with ERR 6. -/
theorem test_status :
    ready.status = 0x10 ∧ ({ State.reset with err := .fault .operandNotReady } : State).status = 0x06 := by decide

/-! ## Steps -/

/-- From reset, PAD's word runs PAD on the empty input (R143 a). -/
theorem test_step_pad :
    (nextOf (step (State.reset.withFetchWord 32 0x07))).map State.obuf = some (List.replicate 16 0x10) := by
  decide +kernel

/-- From reset, a reserved word ends with ERR 5, and FROUND 15 with ERR 6. -/
theorem test_step_faults :
    (nextOf (step (State.reset.withFetchWord 32 0x00))).map (fun s => s.err.code) = some 5 ∧
    (nextOf (step (State.reset.withFetchWord 32 0xF02))).map (fun s => s.err.code) = some 6 := by decide +kernel

/-! ## Witnesses: for each statement with hypotheses, a state and operands that meet them -/

/-- A one-byte key loaded and derived under the machine's own parameters. -/
def keyed : State :=
  { State.reset with mkw := [(0, 1)], mklen := 1, rk := keyChain Config.params [1], rkv := true }

/-- The host is about to make the moves `ms`. -/
def hosted (ms : List HostMove) : State := { State.reset with host := ms }

theorem capacities : 4 ≤ Config.params.mkMax ∧ Config.params.mkMax ≤ 65536 ∧ Config.params.mkMax % 4 = 0 ∧
    64 ≤ Config.params.ibufMax ∧ Config.params.ibufMax ≤ 0x0FFFFFC0 ∧ Config.params.ibufMax % 4 = 0 := by
  have h := Params.mkMax_bounds Config.params_wellFormed
  have h' := Params.ibufMax_bounds Config.params_wellFormed
  omega

theorem zext32_ibufMax (n : Nat) (h : n ≤ Config.params.ibufMax) : (zext32 n).toNat = n := by
  have := capacities
  rw [toNat_zext32]
  omega

theorem zext32_mkMax (n : Nat) (h : n ≤ Config.params.mkMax) : (zext32 n).toNat = n := by
  have := capacities
  rw [toNat_zext32]
  omega

theorem witness_DecodingFollowsFieldTests :
    (0x1000 : Word).toNat / 4096 ≠ 0 ∧ ((0xF02 : Word).toNat / 4096 = 0 ∧ (0xF02 : Word).toNat % 256 = 2) ∧
    ((0xF0D : Word).toNat / 4096 = 0 ∧ (0xF0D : Word).toNat % 256 ≠ 2 ∧ (0xF0D : Word).toNat / 256 % 16 ≠ 0) ∧
    ((0x0E : Word).toNat / 4096 = 0 ∧ (0x0E : Word).toNat % 256 ≠ 2 ∧ (0x0E : Word).toNat / 256 % 16 = 0 ∧
      14 ≤ (0x0E : Word).toNat % 256) ∧
    ((0x0D : Word).toNat / 4096 = 0 ∧ (0x0D : Word).toNat % 256 ≠ 2 ∧ (0x0D : Word).toNat / 256 % 16 = 0 ∧
      (0x0D : Word).toNat % 256 = 13) := by decide

theorem witness_StepExecutesDecodedCommand :
    (hosted [.write 0 4 0x01]).host = .write 0 4 0x01 :: [] ∧ decode 0x01 = .command .ksderive := by decide

theorem witness_ReservedWordEndsIllegalCommand :
    (hosted [.write 0 4 0x0E]).host = .write 0 4 0x0E :: [] ∧ decode 0x0E = .reserved .opcode := by decide

theorem witness_IdleCoreChangesNothing : State.reset.host = [] := rfl

theorem witness_ResetMoveRestoresResetState : (hosted [.reset]).host = .reset :: [] := rfl

/-- A state with valid round keys meets the invariant, and the step that its host asks for has a next state. -/
theorem witness_EveryStepKeepsInvariant :
    ({ keyed with host := [.write 0 4 0x03] } : State).Inv Config.params ∧
      ∃ t, step { keyed with host := [.write 0 4 0x03] } = .next t := by
  have hc := capacities
  refine ⟨?_, _, rfl⟩
  refine ⟨?_, ?_, ?_, ?_, fun _ => ⟨?_, rfl⟩, ?_, ⟨?_, ?_⟩, ⟨?_, ?_⟩, ⟨?_, ?_⟩⟩ <;> simp [keyed, State.reset]
  all_goals first | omega | decide

theorem witness_CommandsWriteOnlyTheirColumns :
    (∃ t, exec .tagvfy keyed = .next t) ∧ Instr.tagvfy ∉ [Instr.ksderive, .encrypt, .decrypt, .zeroize] ∧
    (∀ r, Instr.tagvfy ≠ .fround r) ∧ Instr.tagvfy ∉ [Instr.encblk, .encblkc, .decblk, .decblkc, .zeroize] ∧
    Instr.tagvfy ∉ [Instr.taggen, .zeroize] ∧ Instr.tagvfy ≠ .zeroize ∧
    Instr.tagvfy ∉ [Instr.pad, .unpad, .encrypt, .decrypt, .zeroize] ∧
    Instr.tagvfy ∉ [Instr.encrypt, .decrypt, .zeroize] :=
  ⟨⟨_, rfl⟩, by decide⟩

theorem witness_EndingsOfEachCommand : ∃ t, exec .decrypt keyed = .next t := ⟨_, rfl⟩

theorem witness_OnlyEncryptSamplesEntropy : (∃ t, exec .encrypt keyed = .next t) ∧ ∃ t, exec .pad keyed = .next t :=
  ⟨⟨_, rfl⟩, _, rfl⟩

theorem witness_BytesPastTheLengthsTakeNoPart :
    (∃ t, exec .encrypt { keyed with ilen := 1 } = .next t) ∧
    (∀ a, a < ({ keyed with ilen := 1 } : State).mklen.toNat → Memory.read [(0, 1), (1, 9)] a = keyed.mkw.read a) ∧
    (∀ a, a < ({ keyed with ilen := 1 } : State).ilen.toNat → Memory.read [(1, 9)] a = keyed.ibufw.read a) :=
  ⟨⟨_, rfl⟩, by decide, by decide⟩

theorem witness_DeriveIsIteratedHash : ([0] : List Byte) ≠ [] ∧ 14 + 1 < 16 := by decide

theorem witness_KsderiveWritesRoundKeys : keyed.mklen ≠ 0 ∧ State.reset.mklen = 0 := by decide

theorem witness_FroundWritesTruncatedHash : keyed.rkv = true ∧ State.reset.rkv = false := ⟨rfl, rfl⟩

theorem witness_EncryptBlockCommandsReplaceBlk : keyed.rkv = true ∧ State.reset.rkv = false := ⟨rfl, rfl⟩

theorem witness_DecryptBlockCommandsReplaceBlk : keyed.rkv = true ∧ State.reset.rkv = false := ⟨rfl, rfl⟩

theorem witness_ChainingSecondHalfUnused :
    (∀ j (hj : j < 8), (iv0 : Chaining)[j] = ((iv0.set 8 0xff).set 15 0xee : Chaining)[j]) ∧
    iv0 ≠ (iv0.set 8 0xff).set 15 0xee := by decide

theorem witness_BlockCommandsUndoEachOther :
    keyed.rkv = true ∧ (Instr.encblkc, Instr.decblkc) ∈
      [(Instr.encblk, Instr.decblk), (.decblk, .encblk), (.encblkc, .decblkc), (.decblkc, .encblkc)] := ⟨rfl, by decide⟩

theorem witness_UnpadAcceptsExactlyPaddedInputs :
    unpadBytes (List.replicate 16 0x10) = .ok [] ∧
    (1 ≤ 16 ∧ 16 ≤ 16 ∧ List.replicate 16 0x10 = [] ++ List.replicate 16 (BitVec.ofNat 8 16)) ∧
    unpadBytes [] = .error .invalidPadding := by decide

theorem witness_PaddingLaws :
    unpadBytes (List.replicate 16 0x10) = .ok [] ∧ (List.replicate 16 (0x10 : Byte)).length % 16 = 0 := by decide

theorem witness_PadWritesPaddedInput :
    ({ State.reset with ilen := zext32 Config.params.ibufMax } : State).ilen.toNat ≤ Config.params.ibufMax :=
  le_of_eq (zext32_ibufMax _ le_rfl)

theorem witness_UnpadWritesUnpaddedInput :
    unpadBytes ({ State.reset with ibufw := [(0, 1)], ilen := 1 } : State).ibuf = .ok [] ∧
    unpadBytes State.reset.ibuf = .error .invalidPadding := by decide

theorem witness_TaggenWritesTag : keyed.mklen ≠ 0 ∧ State.reset.mklen = 0 := by decide

theorem witness_TagvfyComparesTag :
    State.reset.mklen = 0 ∧ keyed.mklen ≠ 0 ∧
    (∃ s : State, s.mklen ≠ 0 ∧ Config.keyedHash (Config.macKeyOf s.keyBytes) s.ibuf = s.tag) ∧
    (∃ s : State, s.mklen ≠ 0 ∧ Config.keyedHash (Config.macKeyOf s.keyBytes) s.ibuf ≠ s.tag) := by
  refine ⟨by decide, by decide,
    ⟨{ keyed with tag := Config.keyedHash (Config.macKeyOf keyed.keyBytes) keyed.ibuf }, by decide, rfl⟩,
    ⟨{ keyed with
        tag := (Config.keyedHash (Config.macKeyOf keyed.keyBytes) keyed.ibuf).set 0
          ((Config.keyedHash (Config.macKeyOf keyed.keyBytes) keyed.ibuf)[0] + 1) }, by decide, ?_⟩⟩
  show Config.keyedHash (Config.macKeyOf keyed.keyBytes) keyed.ibuf ≠ Vector.set _ 0 _
  intro h
  have h0 := congrArg (fun v : Digest => v[0]) h
  simp at h0

theorem witness_GeneratedTagVerifiesOnlyItself :
    keyed.mklen ≠ 0 ∧ ∃ t, exec .taggen keyed = .next t ∧ ∃ g : Digest, g ≠ t.tag := by
  refine ⟨by decide, _, rfl, Vector.set (taggen Config.params keyed).tag 0 ((taggen Config.params keyed).tag[0] + 1), ?_⟩
  intro h
  have h0 := congrArg (fun v : Digest => v[0]) h
  simp at h0

theorem witness_EncryptWritesCiphertextAndScrubs :
    keyed.mklen ≠ 0 ∧
    ({ keyed with ilen := zext32 Config.params.ibufMax } : State).ilen.toNat ≤ Config.params.ibufMax ∧
    State.reset.mklen = 0 :=
  ⟨by decide, le_of_eq (zext32_ibufMax _ le_rfl), rfl⟩

/-- Decryption rounds in the reverse order undo encryption rounds. -/
theorem rounds_undo (P : Params) (ks : List RoundKey) (h : Halves) :
    ks.foldr (fun k h => decRound P k h) (ks.foldl (fun h k => encRound P k h) h) = h := by
  induction ks generalizing h with
  | nil => rfl
  | cons k ks ih => simp [ih]

/-- A ciphertext of the empty plaintext under the machine's parameters. -/
def sealedEmpty : List Byte :=
  sealedBody Config.params [1] [] iv0 ++ (tagOf Config.params [1] (sealedBody Config.params [1] [] iv0)).toList

theorem decrypt_sealedEmpty : decryptMessage Config.params [1] sealedEmpty = .ok [] := by
  have hb : (sealedBody Config.params [1] [] iv0).length = 32 := by simp
  have hp : padBytes [] = (List.replicate 16 0x10 : List Byte) := by decide
  have hlen : sealedEmpty.length = 64 := by simp [sealedEmpty]
  have hauth : parsedAuth sealedEmpty = sealedBody Config.params [1] [] iv0 := by
    rw [parsedAuth, hlen, sealedEmpty, List.take_left' (by rw [hb])]
  have htag : parsedTag sealedEmpty = tagOf Config.params [1] (sealedBody Config.params [1] [] iv0) := by
    rw [parsedTag, hlen, sealedEmpty, List.drop_left' (by rw [hb]), ofBytes_of_toList]
  have hiv : parsedIv sealedEmpty = iv0 := by
    rw [parsedIv, sealedEmpty, sealedBody, List.append_assoc, ofBytes_toList_append]
  have hbody : parsedBody sealedEmpty =
      (encBlock Config.params (blockAt (List.replicate 16 0x10) 0) (keyChain Config.params [1]) (some iv0)).toList := by
    rw [parsedBody, hauth, sealedBody, List.drop_left' (by simp), hp]
    simp [encBlocks, chainingFor]
  rw [decryptMessage, if_neg (by simp), if_neg (by rw [hlen]; decide), if_neg (by rw [hlen]; decide), if_pos (by
    rw [hauth, htag, verifyTag]; exact beq_self_eq_true _), hiv, hbody]
  have hd : decBlocks Config.params (keyChain Config.params [1]) iv0
      (encBlock Config.params (blockAt (List.replicate 16 0x10) 0) (keyChain Config.params [1]) (some iv0)).toList =
      List.replicate 16 0x10 := by
    simp only [decBlocks, Vector.length_toList, chainingFor]
    simp only [show 16 / 16 = 1 from rfl, List.range_one, List.flatMap_cons, List.flatMap_nil, List.append_nil, blockAt,
      List.drop_zero, if_pos, Nat.mul_zero, ofBytes_of_toList, decBlock, encBlock, split_unsplit, rounds_undo,
      mixChaining_mixChaining, unsplit_split]
    decide
  rw [hd]
  decide

/-- Both endings of DECRYPT occur under the machine's own parameters. -/
theorem witness_DecryptWritesPlaintextAndScrubs :
    (∃ (s : State) (x : List Byte), decryptMessage Config.params s.keyBytes s.ibuf = .ok x) ∧
    decryptMessage Config.params State.reset.keyBytes State.reset.ibuf = .error .emptyKey := by
  refine ⟨⟨{ keyed with ibufw := Memory.ofList sealedEmpty, ilen := 64 }, [], ?_⟩, rfl⟩
  have h := Memory.firstBytes_ofList sealedEmpty
  rw [show sealedEmpty.length = 64 by simp [sealedEmpty]] at h
  show decryptMessage Config.params [1] ((Memory.ofList sealedEmpty).firstBytes 64) = .ok []
  rw [h, decrypt_sealedEmpty]

theorem witness_CiphertextLayout :
    ([1] : List Byte) ≠ [] ∧ 1 < (List.replicate 16 (0x41 : Byte)).length / 16 + 1 ∧
    (Vector.replicate 16 0x10 : Block).toList = ((padBytes (List.replicate 16 0x41)).drop (16 * 1)).take 16 := by decide

/-- Entry T14's plaintext of three equal blocks, under two chaining values. -/
theorem witness_EqualLaterBlocksEncryptAlike :
    (∃ x, encryptWithIV testP testkey (List.replicate 48 0x41) iv0 = .ok x) ∧
    (∃ y, encryptWithIV testP testkey (List.replicate 48 0x41) (Vector.replicate 16 0xff) = .ok y) ∧
    1 ≤ 1 ∧ 1 < (List.replicate 48 (0x41 : Byte)).length / 16 + 1 ∧ 2 < (List.replicate 48 (0x41 : Byte)).length / 16 + 1 ∧
    ((padBytes (List.replicate 48 0x41)).drop (16 * 1)).take 16 =
      ((padBytes (List.replicate 48 0x41)).drop (16 * 2)).take 16 :=
  ⟨⟨_, rfl⟩, ⟨_, rfl⟩, by decide⟩

/-- One input for each of the seven cases, at the boundary lengths 47, 48, 49 and 64. -/
theorem witness_DecryptTestsInOrder :
    testkey ≠ [] ∧ (List.replicate 47 (0 : Byte)).length < 48 ∧
    (48 ≤ (List.replicate 49 (0 : Byte)).length ∧ ((List.replicate 49 (0 : Byte)).length - 48) % 16 ≠ 0) ∧
    (48 ≤ (List.replicate 48 (0 : Byte)).length ∧ ((List.replicate 48 (0 : Byte)).length - 48) % 16 = 0 ∧
      (testP.keyedHash (testP.macKeyOf testkey) ((List.replicate 48 0).take 16)).toList ≠ (List.replicate 48 0).drop 16) ∧
    ((iv0.toList ++ (testP.keyedHash (testP.macKeyOf testkey) iv0.toList).toList).length = 48) ∧
    (scenarioA.length = 80 ∧ (scenarioA.length - 48) % 16 = 0 ∧
      (testP.keyedHash (testP.macKeyOf testkey) (scenarioA.take 48)).toList = scenarioA.drop 48) := by decide +kernel

theorem witness_DecryptReturnsEncryptedPlaintext : ([0] : List Byte) ≠ [] := by decide

/-- At the largest input that leaves room for its ciphertext; the second state is the first's output with the key loaded
again. -/
theorem witness_EncryptThenDecryptReturnsInput :
    ∃ s u t : State, s.mklen ≠ 0 ∧ s.ilen.toNat + 64 = Config.params.ibufMax ∧ exec .encrypt s = .next t ∧
      u.keyBytes = s.keyBytes ∧ u.ibuf = t.obuf := by
  have hc := capacities
  refine ⟨{ keyed with ilen := zext32 (Config.params.ibufMax - 64) },
    { keyed with
      ibufw := (encrypt Config.params { keyed with ilen := zext32 (Config.params.ibufMax - 64) }).obufw,
      ilen := (encrypt Config.params { keyed with ilen := zext32 (Config.params.ibufMax - 64) }).olen },
    encrypt Config.params { keyed with ilen := zext32 (Config.params.ibufMax - 64) }, ?_, ?_, rfl, rfl, rfl⟩
  · decide
  · show (zext32 (Config.params.ibufMax - 64)).toNat + 64 = _
    rw [zext32_ibufMax _ (by omega)]
    omega

/-- A changed tag byte, and a changed byte of the chaining value, in scenario A's ciphertext. -/
theorem witness_TamperingGivesIntegrityFailure :
    encryptWithIV testP testkey a16.toList iv0 = .ok scenarioA ∧
    ((scenarioA.set 79 0xfa).length = scenarioA.length ∧ (scenarioA.set 79 0xfa).take 48 = scenarioA.take 48 ∧
      scenarioA.set 79 0xfa ≠ scenarioA) ∧
    ((scenarioA.set 8 0x88).length = scenarioA.length ∧ (scenarioA.set 8 0x88).drop 48 = scenarioA.drop 48) := by
  decide +kernel

theorem witness_WholeMessageCommandsIgnoreBlockRegisters :
    ({ keyed with rkv := false, rk := zeroKeys } : State) =
      { keyed with rk := zeroKeys, rkv := false, iv := keyed.iv, blk := keyed.blk, fo := keyed.fo, tag := keyed.tag,
                   obufw := keyed.obufw, olen := keyed.olen, err := keyed.err } ∧
    ∃ t, exec .encrypt keyed = .next t := ⟨rfl, _, rfl⟩

theorem witness_FailureLeavesNoOutput :
    ∃ t, exec .unpad { State.reset with obufw := [(0, 7)], olen := 1 } = .next t ∧ t.err ≠ .success :=
  ⟨_, rfl, by decide⟩

theorem witness_StatusReadsErrAndRkv : 5 ≤ 5 := le_rfl

/-- A refused write and a refused read at the first reserved word. -/
theorem witness_BusErrorsInExactlyFiveCases :
    (hosted [.write 0x1C 4 0]).host = .write 0x1C 4 0 :: [] ∧
    busWrite Config.params 0x1C 4 0 (hosted [.write 0x1C 4 0]) = .refused ∧
    (hosted [.read 0x02 4]).host = .read 0x02 4 :: [] ∧
    busRead Config.params 0x02 4 (hosted [.read 0x02 4]) = .readRefused ∧
    ((0x00 : Word).toNat = 0 ∧ (0x00 : Word).toNat % 4 = 0) ∧
    (0x10000 ≤ (0x10000 : Word).toNat ∧ (0x10000 : Word).toNat < 0x10000 + Config.params.mkMax) := by
  refine ⟨rfl, by decide, rfl, by decide, by decide, by decide, ?_⟩
  show 0x10000 < 0x10000 + Config.params.mkMax
  have := capacities
  omega

theorem witness_ReadsHaveNoSideEffect : (hosted [.read 0x04 4]).host = .read 0x04 4 :: [] := rfl

/-- The first and the last word of the MK window. -/
theorem witness_KeyMaterialUnreadableOnBus :
    4 * 0 < Config.params.mkMax ∧ 4 * (Config.params.mkMax / 4 - 1) < Config.params.mkMax ∧
    Config.params.mkMax ≤ 4 * (Config.params.mkMax / 4 - 1 + 1) := by
  have := capacities
  omega

theorem witness_KeyWritesInvalidateRoundKeys :
    (4 * (Config.params.mkMax / 4 - 1) < Config.params.mkMax ∧ keyed.mkw.wf ∧
      ({ keyed with host := [.write (BitVec.ofNat 32 (0x10000 + 4 * (Config.params.mkMax / 4 - 1))) 4 0] } : State).host =
        .write (BitVec.ofNat 32 (0x10000 + 4 * (Config.params.mkMax / 4 - 1))) 4 0 :: []) ∧
    ((zext32 Config.params.mkMax).toNat ≤ Config.params.mkMax ∧
      ({ keyed with host := [.write 8 4 (zext32 Config.params.mkMax)] } : State).host =
        .write 8 4 (zext32 Config.params.mkMax) :: []) := by
  have := capacities
  exact ⟨⟨by omega, by decide, rfl⟩, le_of_eq (zext32_mkMax _ le_rfl), rfl⟩

theorem witness_InputWritesStoreOnlyTheirBytes :
    (4 * (Config.params.ibufMax / 4 - 1) < Config.params.ibufMax ∧ State.reset.ibufw.wf ∧
      (hosted [.write (BitVec.ofNat 32 (0x10000000 + 4 * (Config.params.ibufMax / 4 - 1))) 4 0]).host =
        .write (BitVec.ofNat 32 (0x10000000 + 4 * (Config.params.ibufMax / 4 - 1))) 4 0 :: []) ∧
    ((zext32 Config.params.ibufMax).toNat ≤ Config.params.ibufMax ∧
      (hosted [.write 0x0C 4 (zext32 Config.params.ibufMax)]).host = .write 0x0C 4 (zext32 Config.params.ibufMax) :: []) := by
  have := capacities
  exact ⟨⟨by omega, by decide, rfl⟩, le_of_eq (zext32_ibufMax _ le_rfl), rfl⟩

/-- The last word of each window. -/
theorem witness_RegisterWindowWritesSetFourBytes :
    (3 < 4 ∧ (hosted [.write 0x2C 4 5]).host = .write (BitVec.ofNat 32 (0x20 + 4 * 3)) 4 5 :: []) ∧
    (3 < 4 ∧ (hosted [.write 0x3C 4 5]).host = .write (BitVec.ofNat 32 (0x30 + 4 * 3)) 4 5 :: []) ∧
    (7 < 8 ∧ (hosted [.write 0x7C 4 5]).host = .write (BitVec.ofNat 32 (0x60 + 4 * 7)) 4 5 :: []) := by decide

/-- A write outside the MK window and one inside it. -/
theorem witness_ReadAfterWriteReturnsWord :
    State.reset.ibufw.wf ∧ (∃ t, busWrite Config.params 0x7C 4 5 State.reset = .stored t) ∧
    ∃ t, busWrite Config.params 0x10000 4 5 State.reset = .stored t := by
  refine ⟨by decide, ⟨_, rfl⟩, { State.reset with mkw := State.reset.mkw.writeWord 0 5 }, ?_⟩
  have ht : target Config.params 0x10000 4 = some (.mk 0) := by
    rw [target_eq_some]
    exact ⟨by decide, rfl, locate_mk (k := 0) (by have := capacities; omega)⟩
  rw [busWrite, ht]
  rfl

/-- An output of five bytes meets the invariant; its words 0 and 1 hold it and word 2 is past it. -/
theorem witness_OutputWindowReadsOutput :
    (State.reset.setOut (hex 5 0x68656c6c6f).toList).Inv Config.params ∧
    (State.reset.setOut (hex 5 0x68656c6c6f).toList).olen.toNat = 5 ∧ (5 + 3) / 4 ≤ 2 ∧ 4 * 2 < Config.params.obufMax := by
  have hc := capacities
  have ho : Config.params.obufMax = Config.params.ibufMax + 64 := rfl
  have hl : (State.reset.setOut (hex 5 0x68656c6c6f).toList).olen.toNat = 5 := rfl
  refine ⟨⟨?_, ?_, ?_, ?_, ?_, ?_, ⟨?_, ?_⟩, ⟨?_, ?_⟩, ⟨?_, ?_⟩⟩, hl, by decide, by omega⟩
  · exact Nat.zero_le _
  · exact Nat.zero_le _
  · omega
  · intro i hi
    rw [hl] at hi
    rw [State.read_setOut]
    exact List.getD_eq_default _ _ hi
  · intro h
    cases h
  · intro _
    rfl
  · exact Memory.wf_nil
  · intro c h
    cases h
  · exact Memory.wf_nil
  · intro c h
    cases h
  · exact Memory.wf_ofList _
  · intro c h
    have := Memory.mem_ofListFrom h
    simp only [Vector.length_toList] at this
    omega

theorem witness_RegisterWindowsPackLittleEndian : 3 < 4 ∧ 1 < 2 ∧ 7 < 8 := by decide

/-- The longest key that fits, and the empty one. -/
theorem witness_LdkeyLoadsMasterKey :
    State.reset.mkw.wf ∧ (List.replicate Config.params.mkMax (7 : Byte)).length ≤ Config.params.mkMax ∧
    ([] : List Byte).length ≤ Config.params.mkMax :=
  ⟨by decide, by simp, Nat.zero_le _⟩

/-- The longest input that fits, and the empty one. -/
theorem witness_LdinLoadsInput :
    State.reset.ibufw.wf ∧ (List.replicate Config.params.ibufMax (7 : Byte)).length ≤ Config.params.ibufMax ∧
    ([] : List Byte).length ≤ Config.params.ibufMax :=
  ⟨by decide, by simp, Nat.zero_le _⟩

end Sys2Proof.Tests
end

/-! # Proofs for 10_state.md: the state, its invariants, and what a command may read and write -/

namespace Sys2Proof.Machine

/-! ## What each command writes (R38) -/

theorem fround_frame (P : Params) (r : Fin 16) (s : State) :
    ∃ v e, fround P r s = { s with fo := v, err := e } := by
  unfold fround
  split
  · exact ⟨_, _, rfl⟩
  · exact ⟨s.fo, _, rfl⟩

theorem blockCommand_frame (f : State → Block) (s : State) :
    ∃ b e, blockCommand f s = { s with blk := b, err := e } := by
  unfold blockCommand
  split
  · exact ⟨_, _, rfl⟩
  · exact ⟨s.blk, _, rfl⟩

theorem taggen_frame (P : Params) (s : State) : ∃ v e, taggen P s = { s with tag := v, err := e } := by
  unfold taggen
  split
  · exact ⟨s.tag, _, rfl⟩
  · exact ⟨_, _, rfl⟩

theorem tagvfy_frame (P : Params) (s : State) : ∃ e, tagvfy P s = { s with err := e } := by
  unfold tagvfy
  split
  · exact ⟨_, rfl⟩
  · split
    · exact ⟨_, rfl⟩
    · exact ⟨_, rfl⟩

/-- KSDERIVE's two endings (R102). -/
theorem ksderive_cases (P : Params) (s : State) :
    (∃ e, ksderive P s = s.clearKeys.raise e) ∨
    (0 < s.mklen.toNat ∧ ∃ k, deriveKeys P s.keyBytes = .ok k ∧
      ksderive P s = State.succeed { s with rk := k, rkv := true }) := by
  cases hd : deriveKeys P s.keyBytes with
  | error e => exact .inl ⟨e, by simp only [ksderive, hd]⟩
  | ok k =>
    have hpos : s.mklen.toNat ≠ 0 := fun h0 => by simp [deriveKeys, h0] at hd
    exact .inr ⟨Nat.pos_of_ne_zero hpos, k, rfl, by simp only [ksderive, hd]⟩

theorem ksderive_frame (P : Params) (s : State) :
    ∃ k v e, ksderive P s = { s with rk := k, rkv := v, err := e } := by
  obtain ⟨e, h⟩ | ⟨-, k, -, h⟩ := ksderive_cases P s
  · exact ⟨_, _, _, h⟩
  · exact ⟨_, _, _, h⟩

/-- The one inversion of a command: what it writes, by the shared operation that writes it. KSDERIVE's values are in
`ksderive_cases`. -/
theorem exec_cases {i : Instr} {s t : State} (h : exec i s = .next t) :
    (i = .ksderive ∧ t = ksderive Config.params s) ∨
    (∃ r v e, i = .fround r ∧ t = { s with fo := v, err := e }) ∨
    (i ∈ [Instr.encblk, .encblkc, .decblk, .decblkc] ∧ ∃ b e, t = { s with blk := b, err := e }) ∨
    (i = .taggen ∧ ∃ v e, t = { s with tag := v, err := e }) ∨
    (i = .tagvfy ∧ ∃ e, t = { s with err := e }) ∨
    (i = .pad ∧ t = s.deliver (.ok (padBytes s.ibuf))) ∨
    (i = .unpad ∧ t = s.deliver (unpadBytes s.ibuf)) ∨
    (i = .encrypt ∧
      t = s.sampled.scrub.deliver (encryptWithIV Config.params s.keyBytes s.ibuf (s.ivDraw Config.params))) ∨
    (i = .decrypt ∧ t = s.scrub.deliver (decryptMessage Config.params s.keyBytes s.ibuf)) ∨
    (i = .zeroize ∧ t = zeroize s) := by
  cases i with
  | ksderive => cases h; simp
  | fround r =>
    obtain ⟨v, e, hf⟩ := fround_frame Config.params r s
    cases h
    exact .inr (.inl ⟨r, v, e, rfl, hf⟩)
  | encblk => cases h; exact .inr (.inr (.inl ⟨by simp, blockCommand_frame _ s⟩))
  | encblkc => cases h; exact .inr (.inr (.inl ⟨by simp, blockCommand_frame _ s⟩))
  | decblk => cases h; exact .inr (.inr (.inl ⟨by simp, blockCommand_frame _ s⟩))
  | decblkc => cases h; exact .inr (.inr (.inl ⟨by simp, blockCommand_frame _ s⟩))
  | taggen => cases h; exact .inr (.inr (.inr (.inl ⟨rfl, taggen_frame _ s⟩)))
  | tagvfy => cases h; exact .inr (.inr (.inr (.inr (.inl ⟨rfl, tagvfy_frame _ s⟩))))
  | pad => cases h; simp [State.deliver_ok]
  | unpad => cases h; simp
  | encrypt => cases h; simp [encrypt]
  | decrypt => cases h; simp [decrypt]
  | zeroize => cases h; simp

/-- Settles O12, by the inversion of a command. -/
theorem commandsWriteOnlyTheirColumns : Obligations.CommandsWriteOnlyTheirColumns := by
  intro i s t h
  rcases exec_cases h with ⟨rfl, rfl⟩ | ⟨r, v, e, rfl, rfl⟩ | ⟨hi, b, e, rfl⟩ | ⟨rfl, v, e, rfl⟩ | ⟨rfl, e, rfl⟩ |
    ⟨rfl, rfl⟩ | ⟨rfl, rfl⟩ | ⟨rfl, rfl⟩ | ⟨rfl, rfl⟩ | ⟨rfl, rfl⟩
  · obtain ⟨k, v, e, hk⟩ := ksderive_frame Config.params s
    simp [hk]
  · simp
  · simp only [List.mem_cons, List.not_mem_nil, or_false] at hi
    rcases hi with rfl | rfl | rfl | rfl <;> simp
  · simp
  · simp
  · simp
  · simp
  · simp
  · simp
  · simp [zeroize]

/-- Settles O14, by the inversion of a command. -/
theorem onlyEncryptSamplesEntropy : Obligations.OnlyEncryptSamplesEntropy := by
  intro i s t h
  rcases exec_cases h with ⟨rfl, rfl⟩ | ⟨r, v, e, rfl, rfl⟩ | ⟨hi, b, e, rfl⟩ | ⟨rfl, v, e, rfl⟩ | ⟨rfl, e, rfl⟩ |
    ⟨rfl, rfl⟩ | ⟨rfl, rfl⟩ | ⟨rfl, rfl⟩ | ⟨rfl, rfl⟩ | ⟨rfl, rfl⟩
  · obtain ⟨k, v, e, hk⟩ := ksderive_frame Config.params s
    simp [hk]
  · simp
  · have hne : i ≠ .encrypt := by rintro rfl; simp at hi
    simp [hne]
  · simp
  · simp
  · simp
  · simp
  · simp
  · simp
  · simp [zeroize]

/-! ## How long the delivered results are -/

/-- A ciphertext is 48 bytes longer than its padded plaintext (R161). -/
theorem length_of_encryptWithIV {P : Params} {key plain x : List Byte} {iv : Chaining}
    (h : encryptWithIV P key plain iv = .ok x) : x.length = 64 + 16 * (plain.length / 16) := by
  unfold encryptWithIV at h
  split at h
  · cases h
  · cases h
    simp
    omega

/-- `Unpad` returns fewer bytes than it is given (R142). -/
theorem length_of_unpadBytes {e u : List Byte} (h : unpadBytes e = .ok u) : u.length < e.length := by
  obtain he | ⟨u', hu, hlt⟩ := unpadBytes_cases e
  · simp [he] at h
  · rw [hu] at h
    cases h
    exact hlt

/-- A decrypted message is shorter than its ciphertext (R164). -/
theorem length_of_decryptMessage {P : Params} {key c x : List Byte} (h : decryptMessage P key c = .ok x) :
    x.length < c.length := by
  have hbody : (parsedBody c).length ≤ c.length := by simp [parsedBody, parsedAuth]; omega
  unfold decryptMessage at h
  split_ifs at h
  have := length_of_unpadBytes h
  simp only [length_decBlocks] at this
  omega

/-! ## The invariant of R36, update by update -/

theorem Memory.within_nil (cap : Nat) : Memory.Within [] cap := ⟨Memory.wf_nil, by simp⟩

theorem Memory.within_ofList {l : List Byte} {cap : Nat} (h : l.length ≤ cap) : (Memory.ofList l).Within cap :=
  ⟨Memory.wf_ofList l, fun _ hc => by have := Memory.mem_ofListFrom hc; omega⟩

/-- A word write below a capacity that is whole words stays below it (R54, R55). -/
theorem Memory.Within.writeWord {m : Memory} {cap k : Nat} (hm : m.Within cap) (hcap : cap % 4 = 0)
    (hk : 4 * k < cap) (w : Word) : (m.writeWord k w).Within cap :=
  ⟨Memory.wf_writeWord hm.1 k w, fun c hc => by
    rcases Memory.mem_writeWord hc with hc | hc
    · exact hm.2 c hc
    · omega⟩

/-- The reset state meets the invariant under any parameters. -/
theorem State.inv_reset (P : Params) : State.reset.Inv P where
  mklen_le := Nat.zero_le _
  ilen_le := Nat.zero_le _
  olen_le := Nat.zero_le _
  obuf_zero _ _ := rfl
  keys_valid h := by cases h
  keys_zero _ := rfl
  mkw_within := Memory.within_nil _
  ibufw_within := Memory.within_nil _
  obufw_within := Memory.within_nil _

namespace State.Inv

variable {P : Params} {s : State}

/-- The invariant speaks of none of these fields. -/
theorem registers (h : s.Inv P) (iv : Chaining) (blk : Block) (fo : Half) (tag : Digest) (err : Ending) (draws : Nat)
    (host : List HostMove) (reply : Option BusReply) :
    State.Inv P { s with iv := iv, blk := blk, fo := fo, tag := tag, err := err, draws := draws, host := host,
                         reply := reply } :=
  { h with }

/-- Without round keys any key buffer and length within the capacity will do (R23, R56). -/
theorem clearKeys_withKey (h : s.Inv P) {m : Memory} {n : Word} (hm : m.Within P.mkMax) (hn : n.toNat ≤ P.mkMax) :
    State.Inv P { s.clearKeys with mkw := m, mklen := n } :=
  { h with
    mklen_le := hn
    mkw_within := hm
    keys_valid := fun hv => by cases hv
    keys_zero := fun _ => rfl }

theorem clearKeys (h : s.Inv P) : s.clearKeys.Inv P := h.clearKeys_withKey h.mkw_within h.mklen_le

/-- Derived round keys satisfy R36 (c). -/
theorem withKeys (h : s.Inv P) {k : RoundKeys} (hpos : 0 < s.mklen.toNat) (hk : deriveKeys P s.keyBytes = .ok k) :
    State.Inv P { s with rk := k, rkv := true } :=
  { h with
    keys_valid := fun _ => ⟨hpos, hk⟩
    keys_zero := fun hv => by cases hv }

theorem withInput (h : s.Inv P) {m : Memory} {n : Word} (hm : m.Within P.ibufMax) (hn : n.toNat ≤ P.ibufMax) :
    State.Inv P { s with ibufw := m, ilen := n } :=
  { h with ilen_le := hn, ibufw_within := hm }

theorem scrub (h : s.Inv P) : s.scrub.Inv P :=
  (h.clearKeys_withKey (Memory.within_nil _) (Nat.zero_le _)).withInput (Memory.within_nil _) (Nat.zero_le _)

/-- `SetOut` of a result that fits: OLEN is its length and OBUFW is zero from there on (R29). -/
theorem setOut (h : s.Inv P) (hP : P.wellFormed = true) {x : List Byte} (hx : x.length ≤ P.obufMax) :
    (s.setOut x).Inv P := by
  have hbound := (P.ibufMax_bounds hP).2.2
  have holen : (s.setOut x).olen.toNat = x.length := by
    rw [State.setOut_olen, toNat_zext32]
    unfold Params.obufMax at hx
    omega
  exact { h with
    olen_le := holen ▸ hx
    obuf_zero := fun i hi => by
      rw [holen] at hi
      rw [State.read_setOut, List.getD_eq_default _ _ hi]
    obufw_within := Memory.within_ofList hx }

theorem deliver (h : s.Inv P) (hP : P.wellFormed = true) {r : Except Error (List Byte)}
    (hr : ∀ x, r = .ok x → x.length ≤ P.obufMax) : (s.deliver r).Inv P := by
  cases r with
  | ok x => exact (h.setOut hP (hr x rfl)).registers ..
  | error e => exact (h.setOut hP (Nat.zero_le _)).registers ..

end State.Inv

/-- A word written to a buffer window or a length register leaves the invariant in force (R54, R56, R57, R60). -/
theorem busWrite_keeps_inv {P : Params} {s t : State} {addr v : Word} {size : Nat} (h : s.Inv P)
    (hP : P.wellFormed = true) (hw : busWrite P addr size v s = .stored t) : t.Inv P := by
  have hmk := (P.mkMax_bounds hP).1
  have hib := (P.ibufMax_bounds hP).1
  rcases busWrite_stored hw with ⟨hv, rfl⟩ | ⟨hv, rfl⟩ | ⟨k, -, rfl⟩ | ⟨k, -, rfl⟩ | ⟨k, -, rfl⟩ | ⟨k, hk, rfl⟩ |
    ⟨k, hk, rfl⟩
  · exact h.clearKeys_withKey h.mkw_within hv
  · exact h.withInput h.ibufw_within hv
  · exact h.registers ..
  · exact h.registers ..
  · exact h.registers ..
  · exact h.clearKeys_withKey (h.mkw_within.writeWord hmk hk v) h.mklen_le
  · exact h.withInput (h.ibufw_within.writeWord hib hk v) h.ilen_le

/-- A command keeps the invariant: each result fits the output buffer, and round keys are valid only as derived. -/
theorem exec_keeps_inv {i : Instr} {s t : State} (hs : s.Inv Config.params) (h : exec i s = .next t) :
    t.Inv Config.params := by
  have hP := Config.params_wellFormed
  have hcap : Config.params.obufMax = Config.params.ibufMax + 64 := rfl
  have hin := hs.ilen_le
  rw [← State.length_ibuf] at hin
  rcases exec_cases h with ⟨-, rfl⟩ | ⟨-, -, -, -, rfl⟩ | ⟨-, -, -, rfl⟩ | ⟨-, -, -, rfl⟩ | ⟨-, -, rfl⟩ |
    ⟨-, rfl⟩ | ⟨-, rfl⟩ | ⟨-, rfl⟩ | ⟨-, rfl⟩ | ⟨-, rfl⟩
  · obtain ⟨e, hk⟩ | ⟨hpos, k, hk, hd⟩ := ksderive_cases Config.params s
    · exact hk ▸ hs.clearKeys.registers ..
    · exact hd ▸ (hs.withKeys hpos hk).registers ..
  · exact hs.registers ..
  · exact hs.registers ..
  · exact hs.registers ..
  · exact hs.registers ..
  · refine hs.deliver hP fun x hx => ?_
    have := padLength_bounds s.ibuf.length
    cases hx
    rw [length_padBytes]
    omega
  · refine hs.deliver hP fun x hx => ?_
    have := length_of_unpadBytes hx
    omega
  · refine State.Inv.deliver (State.Inv.scrub (hs.registers ..)) hP fun x hx => ?_
    have := length_of_encryptWithIV hx
    omega
  · refine hs.scrub.deliver hP fun x hx => ?_
    have := length_of_decryptMessage hx
    omega
  · exact State.Inv.registers (State.Inv.setOut (hs.scrub.registers ..) hP (Nat.zero_le _)) ..

theorem step_keeps_inv {s t : State} (hs : s.Inv Config.params) (h : step s = .next t) : t.Inv Config.params := by
  rcases step_cases h with ⟨-, rfl⟩ | ⟨rest, -, rfl⟩ | ⟨_, _, _, -, rfl⟩ | ⟨_, _, _, _, -, rfl, -⟩ |
    ⟨_, _, _, _, u, -, rfl, hw⟩ | ⟨_, _, _, -, -, hx⟩ | ⟨_, _, _, -, -, rfl⟩
  · exact hs
  · exact (State.inv_reset _).registers ..
  · exact hs.registers ..
  · exact hs.registers ..
  · exact (busWrite_keeps_inv hs Config.params_wellFormed hw).registers ..
  · exact exec_keeps_inv (hs.registers ..) hx
  · exact hs.registers ..

/-- ERR holds no code above 6 (R36 e, R190). -/
theorem Ending.code_le (e : Ending) : e.code.toNat ≤ 6 := by
  rcases e with _ | e | f
  · decide
  · cases e <;> decide
  · cases f <;> decide

/-- Settles O10: every kind of step keeps the invariant, and ERR has only codes up to 6. -/
theorem everyStepKeepsInvariant : Obligations.EveryStepKeepsInvariant :=
  fun _ t hs h => ⟨step_keeps_inv hs h, t.err.code_le⟩

/-- Settles O11: the invariant holds in the reset state under any parameters. -/
theorem resetMeetsInvariant : Obligations.ResetMeetsInvariant :=
  ⟨State.inv_reset _, State.reset.err.code_le⟩

/-- Settles O1, field by field. -/
theorem resetStateIsAllZero : Obligations.ResetStateIsAllZero := by
  refine ⟨Memory.read_nil, rfl, fun i hi j hj => ?_, rfl, fun j hj => ?_, fun j hj => ?_, fun j hj => ?_,
    fun j hj => ?_, Memory.read_nil, rfl, Memory.read_nil, rfl, rfl⟩
  all_goals simp [State.reset, zeroKeys]

/-! ## Bytes past the lengths take no part (R22, R28) -/

/-- The state with other contents of the key and input buffers. -/
def State.withBuffers (m m' : Memory) (s : State) : State := { s with mkw := m, ibufw := m' }

section
variable {s : State} {m m' : Memory}

theorem State.keyBytes_withBuffers (h : ∀ a, a < s.mklen.toNat → m.read a = s.mkw.read a) :
    (s.withBuffers m m').keyBytes = s.keyBytes := Memory.firstBytes_congr h

theorem State.ibuf_withBuffers (h : ∀ a, a < s.ilen.toNat → m'.read a = s.ibufw.read a) :
    (s.withBuffers m m').ibuf = s.ibuf := Memory.firstBytes_congr h

theorem State.deliver_withBuffers (r : Except Error (List Byte)) :
    (s.withBuffers m m').deliver r = (s.deliver r).withBuffers m m' := by
  cases r <;> rfl

theorem ksderive_withBuffers (P : Params) (hk : (s.withBuffers m m').keyBytes = s.keyBytes) :
    ksderive P (s.withBuffers m m') = (ksderive P s).withBuffers m m' := by
  unfold ksderive
  rw [hk]
  split <;> rfl

theorem fround_withBuffers (P : Params) (r : Fin 16) :
    fround P r (s.withBuffers m m') = (fround P r s).withBuffers m m' := by
  unfold fround
  rw [show (s.withBuffers m m').rkv = s.rkv from rfl]
  split <;> rfl

theorem blockCommand_withBuffers {f : State → Block} (hf : f (s.withBuffers m m') = f s) :
    blockCommand f (s.withBuffers m m') = (blockCommand f s).withBuffers m m' := by
  unfold blockCommand
  rw [hf, show (s.withBuffers m m').rkv = s.rkv from rfl]
  split <;> rfl

theorem taggen_withBuffers (P : Params) (hk : (s.withBuffers m m').keyBytes = s.keyBytes)
    (hi : (s.withBuffers m m').ibuf = s.ibuf) :
    taggen P (s.withBuffers m m') = (taggen P s).withBuffers m m' := by
  unfold taggen
  rw [hk, hi, show (s.withBuffers m m').mklen = s.mklen from rfl]
  split <;> rfl

theorem tagvfy_withBuffers (P : Params) (hk : (s.withBuffers m m').keyBytes = s.keyBytes)
    (hi : (s.withBuffers m m').ibuf = s.ibuf) :
    tagvfy P (s.withBuffers m m') = (tagvfy P s).withBuffers m m' := by
  unfold tagvfy
  rw [hk, hi, show (s.withBuffers m m').mklen = s.mklen from rfl, show (s.withBuffers m m').tag = s.tag from rfl]
  split
  · rfl
  · split <;> rfl

theorem encrypt_withBuffers (P : Params) (hk : (s.withBuffers m m').keyBytes = s.keyBytes)
    (hi : (s.withBuffers m m').ibuf = s.ibuf) : encrypt P (s.withBuffers m m') = encrypt P s := by
  unfold encrypt
  rw [hk, hi]
  rfl

theorem decrypt_withBuffers (P : Params) (hk : (s.withBuffers m m').keyBytes = s.keyBytes)
    (hi : (s.withBuffers m m').ibuf = s.ibuf) : decrypt P (s.withBuffers m m') = decrypt P s := by
  unfold decrypt
  rw [hk, hi]
  rfl

/-- A command sees the buffers only through MK and IBUF: it leaves the same state but for the buffers, which it either
keeps or scrubs. -/
theorem exec_withBuffers {i : Instr} {t : State} (hk : (s.withBuffers m m').keyBytes = s.keyBytes)
    (hi : (s.withBuffers m m').ibuf = s.ibuf) (h : exec i s = .next t) :
    exec i (s.withBuffers m m') = .next (t.withBuffers m m') ∨ exec i (s.withBuffers m m') = .next t := by
  cases i <;> cases h
  case ksderive => exact .inl (congrArg Host.Outcome.next (ksderive_withBuffers _ hk))
  case fround r => exact .inl (congrArg Host.Outcome.next (fround_withBuffers _ r))
  case encblk => exact .inl (congrArg Host.Outcome.next (blockCommand_withBuffers rfl))
  case encblkc => exact .inl (congrArg Host.Outcome.next (blockCommand_withBuffers rfl))
  case decblk => exact .inl (congrArg Host.Outcome.next (blockCommand_withBuffers rfl))
  case decblkc => exact .inl (congrArg Host.Outcome.next (blockCommand_withBuffers rfl))
  case pad => exact .inl (by rw [exec, execPad, hi]; rfl)
  case unpad => exact .inl (by rw [exec, execUnpad, hi, State.deliver_withBuffers])
  case taggen => exact .inl (congrArg Host.Outcome.next (taggen_withBuffers _ hk hi))
  case tagvfy => exact .inl (congrArg Host.Outcome.next (tagvfy_withBuffers _ hk hi))
  case encrypt => exact .inr (congrArg Host.Outcome.next (encrypt_withBuffers _ hk hi))
  case decrypt => exact .inr (congrArg Host.Outcome.next (decrypt_withBuffers _ hk hi))
  case zeroize => exact .inr rfl

end

/-- Settles O15: the key and the input are all that a command reads of the two buffers. -/
theorem bytesPastTheLengthsTakeNoPart : Obligations.BytesPastTheLengthsTakeNoPart := by
  intro i s t m m' h hm hm'
  have hk : (s.withBuffers m m').keyBytes = s.keyBytes := State.keyBytes_withBuffers hm
  have hi : (s.withBuffers m m').ibuf = s.ibuf := State.ibuf_withBuffers hm'
  obtain h' | h' := exec_withBuffers hk hi h
  · exact ⟨_, h', rfl⟩
  · exact ⟨_, h', rfl⟩

/-! ## Reaching a location by its offset (R53, R54) -/

/-- A 4-byte access at a multiple of 4 reaches what the address map says. -/
theorem target_word {P : Params} {a : Nat} {loc : Loc} (ha : a % 4 = 0) (hlt : a < 2 ^ 32)
    (hl : locate P a = some loc) : target P (BitVec.ofNat 32 a) 4 = some loc := by
  rw [target_eq_some, BitVec.toNat_ofNat, Nat.mod_eq_of_lt hlt]
  exact ⟨ha, rfl, hl⟩

theorem busRead_of_target {P : Params} {addr : Word} {size : Nat} {loc : Loc} (h : target P addr size = some loc)
    (s : State) : busRead P addr size s = .readDone (loc.word P s) := by
  simp [busRead, h]

theorem busWrite_of_target {P : Params} {addr : Word} {size : Nat} {loc : Loc} (h : target P addr size = some loc)
    (v : Word) (s : State) : busWrite P addr size v s = loc.write P v s := by
  simp [busWrite, h]

/-! ## The status and length registers (R31 to R33) -/

/-- STATUS bit by bit (R31). -/
theorem State.getLsbD_status (s : State) (j : Nat) :
    s.status.getLsbD j = if j < 4 then s.err.code.getLsbD j else decide (j = 4) && s.rkv := by
  by_cases h : j < 4
  · have h32 : j < 32 := by omega
    simp [State.status, h, h32]
  · have hge : s.err.code.getLsbD j = false := BitVec.getLsbD_of_ge _ _ (by omega)
    by_cases h4 : j = 4
    · subst h4
      simp [State.status]
    · have hsub : j - 4 ≠ 0 := by omega
      simp [State.status, h, h4, hsub, hge]

/-- RDERR's result on the status word is ERR's code (R31, R91). -/
theorem errOfStatus_status (s : State) : errOfStatus s.status = s.err.code := by
  refine BitVec.eq_of_getLsbD_eq fun j hj => ?_
  simp [errOfStatus, State.getLsbD_status, hj]

/-- Settles O46, from the bits of the status word. -/
theorem statusReadsErrAndRkv : Obligations.StatusReadsErrAndRkv := by
  refine ⟨fun s => ⟨s.status, rfl, ?_, ?_, fun j hj => ?_⟩, rfl, rfl, rfl, rfl, rfl, rfl, rfl⟩
  · rw [← errOfStatus_status s]
    simp [errOfStatus]
  · exact (s.getLsbD_status 4).trans (by simp)
  · simp [State.getLsbD_status, show ¬ j < 4 by omega, show j ≠ 4 by omega]

/-- Settles O56, from R10's bounds on the capacities. -/
theorem lengthAndCapacityRegistersRead : Obligations.LengthAndCapacityRegistersRead := by
  obtain ⟨hmk4, hmk, hmk'⟩ := Params.mkMax_bounds Config.params_wellFormed
  obtain ⟨hib4, hib, hib'⟩ := Params.ibufMax_bounds Config.params_wellFormed
  refine ⟨fun s => ⟨rfl, rfl, rfl, zext32 Config.params.mkMax, zext32 Config.params.ibufMax, rfl, ?_, rfl, ?_⟩,
    hmk4, hmk, hmk', hib4, hib, hib'⟩
  · rw [toNat_zext32]
    omega
  · rw [toNat_zext32]
    omega

/-! ## Key material on the bus (R22, R23, R39, R56) -/

/-- Every word of the MK window is reached at its offset (R53). -/
theorem target_mk {k : Nat} (h : 4 * k < Config.params.mkMax) :
    target Config.params (BitVec.ofNat 32 (mkBase + 4 * k)) 4 = some (.mk k) := by
  have hmax := (Params.mkMax_bounds Config.params_wellFormed).2.2
  have hbase : mkBase = 0x00010000 := rfl
  exact target_word (by omega) (by omega) (locate_mk h)

theorem Loc.word_withKeyMaterial (P : Params) (loc : Loc) (s : State) (m : Memory) (k : RoundKeys) :
    loc.word P { s with mkw := m, rk := k } = loc.word P s := by
  cases loc <;> rfl

/-- Settles O49: no location's word is made of MKW or RK, and the MK window and CMD read 0. -/
theorem keyMaterialUnreadableOnBus : Obligations.KeyMaterialUnreadableOnBus := by
  refine ⟨fun s addr size m k => ?_, fun s k hk => busRead_of_target (target_mk hk) s, fun s => rfl⟩
  simp only [busRead, Loc.word_withKeyMaterial]

/-- Settles O50: both stores clear the keys, and a word write to MKW sets its own four bytes. -/
theorem keyWritesInvalidateRoundKeys : Obligations.KeyWritesInvalidateRoundKeys := by
  intro s v rest
  refine ⟨fun k hk hwf hhost => ?_, fun hv hhost => ?_⟩
  · have hw : busWrite Config.params (BitVec.ofNat 32 (mkBase + 4 * k)) 4 v s =
        .stored { s.clearKeys with mkw := s.mkw.writeWord k v } := busWrite_of_target (target_mk hk) v s
    refine ⟨_, step_stored hhost hw, rfl, Memory.wf_writeWord hwf k v, fun j hj => ?_, fun a ha => ?_⟩
    · have hread := Memory.read_writeWord hwf k v (4 * k + j)
      rwa [if_pos (by omega), show (4 * k + j) % 4 = j by omega] at hread
    · have hread := Memory.read_writeWord hwf k v a
      rwa [if_neg (by omega)] at hread
  · have hw : busWrite Config.params 8 4 v s = .stored { s.clearKeys with mklen := v } := by
      rw [busWrite_of_target (loc := .mklen) rfl]
      exact if_pos hv
    exact step_stored hhost hw

end Sys2Proof.Machine

/-! # Proofs for 20_memory.md: the host bus, its windows, and the loading of the two buffers -/

namespace Sys2Proof.Machine

/-- Settles O48: the answer to a read is all that its step adds. -/
theorem readsHaveNoSideEffect : Obligations.ReadsHaveNoSideEffect :=
  fun _ _ _ _ h => step_read h

/-! ## Bus errors (R53, R54) -/

/-- The offsets of R53 that reach no location. -/
def ReservedOffset (P : Params) (a : Nat) : Prop :=
  ¬(a < 0x1C ∨ (0x20 ≤ a ∧ a < 0x48) ∨ (0x60 ≤ a ∧ a < 0x80) ∨ (0x10000 ≤ a ∧ a < 0x10000 + P.mkMax) ∨
    (0x10000000 ≤ a ∧ a < 0x10000000 + P.ibufMax) ∨ (0x20000000 ≤ a ∧ a < 0x20000000 + P.ibufMax + 64))

/-- The offsets of R53's read-only locations. -/
def ReadOnlyOffset (P : Params) (a : Nat) : Prop :=
  a = 0x04 ∨ a = 0x10 ∨ a = 0x14 ∨ a = 0x18 ∨ (0x40 ≤ a ∧ a < 0x48) ∨
    (0x20000000 ≤ a ∧ a < 0x20000000 + P.ibufMax + 64)

/-- A length above its capacity (R54 case e). -/
def LengthTooLong (P : Params) (a : Nat) (v : Word) : Prop :=
  (a = 0x08 ∧ P.mkMax < v.toNat) ∨ (a = 0x0C ∧ P.ibufMax < v.toNat)

theorem locate_eq_none {P : Params} {a : Nat} (ha : a % 4 = 0) : locate P a = none ↔ ReservedOffset P a := by
  have hmk : mkBase = 0x00010000 := rfl
  have hibuf : ibufBase = 0x10000000 := rfl
  have hobuf : obufBase = 0x20000000 := rfl
  have hcap : P.obufMax = P.ibufMax + 64 := rfl
  unfold ReservedOffset
  rcases locate_cases P a ha with ⟨h, hl⟩ | ⟨h, hl⟩ | ⟨h, hl⟩ | ⟨h, hl⟩ | ⟨h, hl⟩ | ⟨h, hl⟩ | ⟨h, hl⟩ |
    ⟨k, hk, h, hl⟩ | ⟨k, hk, h, hl⟩ | ⟨k, hk, h, hl⟩ | ⟨k, hk, h, hl⟩ | ⟨k, hk, h, hl⟩ | ⟨k, hk, h, hl⟩ |
    ⟨k, hk, h, hl⟩ | ⟨h, hl⟩
  all_goals simp only [hl, reduceCtorEq, false_iff, true_iff]
  all_goals omega

/-- The writes that a location refuses, by its offset (R54 cases d, e). -/
theorem Loc.write_eq_refused {P : Params} (hP : P.wellFormed = true) {a : Nat} {loc : Loc} (ha : a % 4 = 0)
    (hloc : locate P a = some loc) (v : Word) (s : State) :
    loc.write P v s = .refused ↔ ReadOnlyOffset P a ∨ LengthTooLong P a v := by
  have hmk : mkBase = 0x00010000 := rfl
  have hibuf : ibufBase = 0x10000000 := rfl
  have hobuf : obufBase = 0x20000000 := rfl
  have hcap : P.obufMax = P.ibufMax + 64 := rfl
  have hmkMax := P.mkMax_bounds hP
  have hibufMax := P.ibufMax_bounds hP
  have hc := locate_cases P a ha
  rw [hloc] at hc
  simp only [Option.some.injEq, reduceCtorEq, and_false, or_false] at hc
  unfold ReadOnlyOffset LengthTooLong
  rcases hc with ⟨h, rfl⟩ | ⟨h, rfl⟩ | ⟨h, rfl⟩ | ⟨h, rfl⟩ | ⟨h, rfl⟩ | ⟨h, rfl⟩ | ⟨h, rfl⟩ |
    ⟨k, hk, h, rfl⟩ | ⟨k, hk, h, rfl⟩ | ⟨k, hk, h, rfl⟩ | ⟨k, hk, h, rfl⟩ | ⟨k, hk, h, rfl⟩ | ⟨k, hk, h, rfl⟩ |
    ⟨k, hk, h, rfl⟩
  all_goals simp only [Loc.write, ite_eq_right_iff, reduceCtorEq, imp_false, false_iff, true_iff]
  all_goals omega

theorem busRead_eq_refused {P : Params} {addr : Word} {size : Nat} {s : State} :
    busRead P addr size s = .readRefused ↔
      addr.toNat % 4 ≠ 0 ∨ size ≠ 4 ∨ ReservedOffset P addr.toNat := by
  have htarget : busRead P addr size s = .readRefused ↔ target P addr size = none := by
    cases h : target P addr size <;> simp [busRead, h]
  rw [htarget, target_eq_none]
  by_cases ha : addr.toNat % 4 = 0
  · rw [locate_eq_none ha]
  · simp [ha]

theorem busWrite_eq_refused {P : Params} (hP : P.wellFormed = true) {addr v : Word} {size : Nat} {s : State} :
    busWrite P addr size v s = .refused ↔ addr.toNat % 4 ≠ 0 ∨ size ≠ 4 ∨ ReservedOffset P addr.toNat ∨
      ReadOnlyOffset P addr.toNat ∨ LengthTooLong P addr.toNat v := by
  cases h : target P addr size with
  | none =>
    have hr := busRead_eq_refused (s := s).1 (show busRead P addr size s = .readRefused by simp [busRead, h])
    simp only [busWrite, h, true_iff]
    tauto
  | some loc =>
    obtain ⟨ha, hsize, hloc⟩ := target_eq_some.1 h
    have hr : ¬ ReservedOffset P addr.toNat := by rw [← locate_eq_none ha, hloc]; simp
    rw [busWrite_of_target h, loc.write_eq_refused hP ha hloc]
    simp [ha, hsize, hr]

/-- A write-only location reads 0 (R53, R54). -/
theorem busRead_writeOnly {P : Params} {addr : Word} (s : State)
    (h : addr.toNat = 0 ∨ (0x10000 ≤ addr.toNat ∧ addr.toNat < 0x10000 + P.mkMax)) (ha : addr.toNat % 4 = 0) :
    busRead P addr 4 s = .readDone 0 := by
  obtain h | ⟨hge, hlt⟩ := h
  · obtain rfl : addr = 0 := BitVec.eq_of_toNat_eq h
    rfl
  · have hbase : mkBase = 0x00010000 := rfl
    obtain ⟨k, hk⟩ : ∃ k, addr.toNat = mkBase + 4 * k := ⟨(addr.toNat - mkBase) / 4, by omega⟩
    have hloc := locate_mk (P := P) (k := k) (by omega)
    exact busRead_of_target (target_eq_some.2 ⟨ha, rfl, hk ▸ hloc⟩) s

/-- Settles O47, from the address map and the locations that refuse a write. -/
theorem busErrorsInExactlyFiveCases : Obligations.BusErrorsInExactlyFiveCases := by
  rintro s addr v size a rfl
  refine ⟨busRead_eq_refused, fun h => by rw [h]; rfl, busWrite_eq_refused Config.params_wellFormed, ?_,
    fun rest hhost hw => step_refused hhost hw, fun rest hhost hr => ?_⟩
  · rintro h ha rfl
    exact busRead_writeOnly s h ha
  · rw [step_read hhost, hr]
    rfl

/-! ## Words and their bytes (R55) -/

/-- The word of four consecutive bytes holds byte `j` in bits 8j+7 to 8j. -/
theorem byteOf_wordOf_consecutive (f : Nat → Byte) (k : Nat) {j : Nat} (hj : j < 4) :
    byteOf (wordOf (f (4 * k)) (f (4 * k + 1)) (f (4 * k + 2)) (f (4 * k + 3))) j = f (4 * k + j) := by
  interval_cases j
  · exact byteOf_wordOf_zero ..
  · exact byteOf_wordOf_one ..
  · exact byteOf_wordOf_two ..
  · exact byteOf_wordOf_three ..

theorem byteAt_eq_getD {n : Nat} (v : Bytes n) (i : Nat) : byteAt v i = v.toList.getD i 0 := by
  by_cases h : i < n
  · simp [byteAt, h]
  · simp [byteAt, h]

theorem byteOf_wordAt {n : Nat} (v : Bytes n) (k : Nat) {j : Nat} (hj : j < 4) :
    byteOf (wordAt v k) j = v.toList.getD (4 * k + j) 0 :=
  (byteOf_wordOf_consecutive (byteAt v) k hj).trans (byteAt_eq_getD ..)

@[simp] theorem getElem_setWordAt {n : Nat} (v : Bytes n) (k : Nat) (w : Word) (j : Nat) (hj : j < n) :
    (setWordAt v k w)[j] = if j / 4 = k then byteOf w (j % 4) else v[j] := by
  simp [setWordAt]

theorem byteOf_packedWord (l : List Byte) (i : Nat) : byteOf (packedWord l (i / 4)) (i % 4) = l.getD i 0 := by
  have h := byteOf_wordOf_consecutive (l.getD · 0) (i / 4) (Nat.mod_lt i (by decide : 0 < 4))
  rwa [Nat.div_add_mod] at h

theorem Memory.byteOf_readWord (m : Memory) (k : Nat) {j : Nat} (hj : j < 4) :
    byteOf (m.readWord k) j = m.read (4 * k + j) :=
  byteOf_wordOf_consecutive m.read k hj

theorem Memory.readWord_eq_zero {m : Memory} {k : Nat} (h : ∀ i, 4 * k ≤ i → m.read i = 0) : m.readWord k = 0 := by
  rw [Memory.readWord, h _ (by omega), h _ (by omega), h _ (by omega), h _ (by omega)]
  rfl

/-- The four bytes of a written word. -/
theorem Memory.read_writeWord_inside {m : Memory} (hm : m.wf) (k : Nat) (w : Word) {j : Nat} (hj : j < 4) :
    (m.writeWord k w).read (4 * k + j) = byteOf w j := by
  rw [Memory.read_writeWord hm, if_pos (by omega), show (4 * k + j) % 4 = j by omega]

/-- The bytes outside a written word. -/
theorem Memory.read_writeWord_outside {m : Memory} (hm : m.wf) (k : Nat) (w : Word) {a : Nat}
    (ha : a < 4 * k ∨ 4 * k + 4 ≤ a) : (m.writeWord k w).read a = m.read a := by
  rw [Memory.read_writeWord hm, if_neg (by omega)]

theorem Memory.readWord_writeWord {m : Memory} (hm : m.wf) (k : Nat) (w : Word) :
    (m.writeWord k w).readWord k = w := by
  have hread (j : Nat) (hj : j < 4) := Memory.read_writeWord_inside hm k w hj
  rw [Memory.readWord, hread 1 (by decide), hread 2 (by decide), hread 3 (by decide)]
  exact (congrArg (wordOf · _ _ _) (hread 0 (by decide))).trans (wordOf_byteOf w)

/-! ## The windows by their offsets (R53) -/

theorem target_iv {P : Params} {k : Nat} (h : k < 4) : target P (BitVec.ofNat 32 (0x20 + 4 * k)) 4 = some (.iv k) := by
  interval_cases k <;> rfl

theorem target_blk {P : Params} {k : Nat} (h : k < 4) :
    target P (BitVec.ofNat 32 (0x30 + 4 * k)) 4 = some (.blk k) := by
  interval_cases k <;> rfl

theorem target_fo {P : Params} {k : Nat} (h : k < 2) : target P (BitVec.ofNat 32 (0x40 + 4 * k)) 4 = some (.fo k) := by
  interval_cases k <;> rfl

theorem target_tag {P : Params} {k : Nat} (h : k < 8) :
    target P (BitVec.ofNat 32 (0x60 + 4 * k)) 4 = some (.tag k) := by
  interval_cases k <;> rfl

theorem target_ibuf {k : Nat} (h : 4 * k < Config.params.ibufMax) :
    target Config.params (BitVec.ofNat 32 (ibufBase + 4 * k)) 4 = some (.ibuf k) := by
  have hmax := (Params.ibufMax_bounds Config.params_wellFormed).2.2
  have hbase : ibufBase = 0x10000000 := rfl
  exact target_word (by omega) (by omega) (locate_ibuf Config.params_wellFormed h)

theorem target_obuf {k : Nat} (h : 4 * k < Config.params.obufMax) :
    target Config.params (BitVec.ofNat 32 (obufBase + 4 * k)) 4 = some (.obuf k) := by
  have hmax := (Params.ibufMax_bounds Config.params_wellFormed).2.2
  have hcap : Config.params.obufMax = Config.params.ibufMax + 64 := rfl
  have hbase : obufBase = 0x20000000 := rfl
  exact target_word (by omega) (by omega) (locate_obuf Config.params_wellFormed h)

/-! ## Writes to the length registers (R32) -/

theorem busWrite_mklen {v : Word} (hv : v.toNat ≤ Config.params.mkMax) (s : State) :
    busWrite Config.params 0x08 4 v s = .stored { s.clearKeys with mklen := v } := by
  rw [busWrite_of_target (loc := .mklen) rfl]
  exact if_pos hv

theorem busWrite_ilen {v : Word} (hv : v.toNat ≤ Config.params.ibufMax) (s : State) :
    busWrite Config.params 0x0C 4 v s = .stored { s with ilen := v } := by
  rw [busWrite_of_target (loc := .ilen) rfl]
  exact if_pos hv

/-- Settles O51: a word write to IBUFW sets its own four bytes, and a length that fits is stored. -/
theorem inputWritesStoreOnlyTheirBytes : Obligations.InputWritesStoreOnlyTheirBytes := by
  refine fun s v rest => ⟨fun k hk hwf hhost => ?_, fun hv hhost => step_stored hhost (busWrite_ilen hv s)⟩
  exact ⟨_, step_stored hhost (busWrite_of_target (target_ibuf hk) v s), rfl, Memory.wf_writeWord hwf k v,
    fun j hj => Memory.read_writeWord_inside hwf k v hj, fun a ha => Memory.read_writeWord_outside hwf k v ha⟩

/-- Settles O52: a word write to a register sets its own four bytes. -/
theorem registerWindowWritesSetFourBytes : Obligations.RegisterWindowWritesSetFourBytes := by
  refine fun s v rest k => ⟨fun hk hhost => ?_, fun hk hhost => ?_, fun hk hhost => ?_⟩
  · exact ⟨_, step_stored hhost (busWrite_of_target (target_iv hk) v s), rfl, getElem_setWordAt s.iv k v⟩
  · exact ⟨_, step_stored hhost (busWrite_of_target (target_blk hk) v s), rfl, getElem_setWordAt s.blk k v⟩
  · exact ⟨_, step_stored hhost (busWrite_of_target (target_tag hk) v s), rfl, getElem_setWordAt s.tag k v⟩

/-- Settles O55, from the bytes of a packed word. -/
theorem registerWindowsPackLittleEndian : Obligations.RegisterWindowsPackLittleEndian := by
  refine fun s k j hj => ⟨fun hk => ?_, fun hk => ?_, fun hk => ?_, fun hk => ?_⟩
  · exact ⟨_, busRead_of_target (target_iv hk) s, byteOf_wordAt s.iv k hj⟩
  · exact ⟨_, busRead_of_target (target_blk hk) s, byteOf_wordAt s.blk k hj⟩
  · exact ⟨_, busRead_of_target (target_fo hk) s, byteOf_wordAt s.fo k hj⟩
  · exact ⟨_, busRead_of_target (target_tag hk) s, byteOf_wordAt s.tag k hj⟩

/-! ## Read after write (R32, R57, R60) -/

/-- The word indexes of the windows that store, and the offsets of the MK window (R53). -/
def Loc.InWindow (P : Params) (a : Nat) (loc : Loc) : Prop :=
  match loc with
  | .iv k | .blk k => k < 4
  | .tag k => k < 8
  | .mk _ => 0x10000 ≤ a ∧ a < 0x10000 + P.mkMax
  | _ => True

theorem Loc.inWindow_of_locate {P : Params} {a : Nat} {loc : Loc} (ha : a % 4 = 0) (h : locate P a = some loc) :
    loc.InWindow P a := by
  have hbase : mkBase = 0x00010000 := rfl
  have hc := locate_cases P a ha
  rw [h] at hc
  cases loc with
  | iv k | blk k | tag k | mk k =>
    simp only [Option.some.injEq, reduceCtorEq, and_false, exists_const, or_false, false_or, Loc.iv.injEq,
      Loc.blk.injEq, Loc.tag.injEq, Loc.mk.injEq] at hc
    obtain ⟨_, hk, ha, rfl⟩ := hc
    simp only [Loc.InWindow]
    omega
  | cmd | status | mklen | ilen | olen | capMk | capIbuf | fo | ibuf | obuf => trivial

/-- A stored word is what its location reads next, but for the MK window (R56). -/
theorem Loc.word_of_stored {P : Params} {a : Nat} {loc : Loc} {v : Word} {s t : State} (hwf : s.ibufw.wf)
    (hin : loc.InWindow P a) (hmk : ¬(0x10000 ≤ a ∧ a < 0x10000 + P.mkMax)) (h : loc.write P v s = .stored t) :
    loc.word P t = v := by
  cases loc with
  | mklen | ilen =>
    simp only [Loc.write] at h
    split at h <;> cases h
    rfl
  | iv k | blk k | tag k =>
    simp only [Loc.InWindow] at hin
    cases h
    exact wordAt_setWordAt_self _ k v (by omega)
  | mk k => exact absurd hin hmk
  | ibuf k =>
    cases h
    exact Memory.readWord_writeWord hwf k v
  | cmd | status | olen | capMk | capIbuf | fo | obuf => cases h

/-- Settles O53, location by location. -/
theorem readAfterWriteReturnsWord : Obligations.ReadAfterWriteReturnsWord := by
  intro s t addr v hwf hw
  cases htarget : target Config.params addr 4 with
  | none => simp [busWrite, htarget] at hw
  | some loc =>
    obtain ⟨ha, -, hloc⟩ := target_eq_some.1 htarget
    rw [busWrite_of_target htarget] at hw
    split
    · exact busRead_writeOnly t (.inr ‹_›) ha
    · rw [busRead_of_target htarget, Loc.word_of_stored hwf (Loc.inWindow_of_locate ha hloc) ‹_› hw]

/-! ## The output window (R59) -/

/-- The words of a buffer window, unpacked, are the buffer's first bytes (R55). -/
theorem unpackWords_readWords (m : Memory) (n : Nat) :
    unpackWords ((List.range n).map m.readWord) = m.firstBytes (4 * n) := by
  induction n with
  | zero => rfl
  | succ n ih =>
    have hword : unpackWords [m.readWord n] = (List.range 4).map fun j => m.read (4 * n + j) := by
      rw [← List.map_congr_left fun j hj => m.byteOf_readWord n (List.mem_range.1 hj)]
      rfl
    have hsplit : unpackWords ((List.range (n + 1)).map m.readWord) =
        unpackWords ((List.range n).map m.readWord) ++ unpackWords [m.readWord n] := by
      simp [unpackWords, List.range_succ]
    rw [hsplit, ih, hword, Memory.firstBytes, Memory.firstBytes, Nat.mul_succ, List.range_add, List.map_append,
      List.map_map]
    rfl

theorem Memory.take_firstBytes (m : Memory) {i n : Nat} (h : i ≤ n) : (m.firstBytes n).take i = m.firstBytes i := by
  rw [Memory.firstBytes, ← List.map_take, List.take_range, Nat.min_eq_left h, Memory.firstBytes]

/-- Settles O54: the words' bytes are the first bytes of OBUFW, which is 0 from OLEN on. -/
theorem outputWindowReadsOutput : Obligations.OutputWindowReadsOutput := by
  intro s hs
  have hcap : Config.params.obufMax = Config.params.ibufMax + 64 := rfl
  have hcap4 := (Params.ibufMax_bounds Config.params_wellFormed).1
  have holen := hs.olen_le
  refine ⟨⟨(List.range (wordCount s.olen.toNat)).map s.obufw.readWord, by simp [wordCount], fun k hk => ?_, ?_⟩,
    fun k hk hfit => ?_⟩
  · rw [List.length_map, List.length_range, wordCount] at hk
    rw [List.getElem_map, List.getElem_range]
    exact busRead_of_target (target_obuf (by omega)) s
  · refine (congrArg (List.take _) (unpackWords_readWords s.obufw (wordCount s.olen.toNat))).trans ?_
    exact s.obufw.take_firstBytes (by unfold wordCount; omega)
  · have hzero : s.obufw.readWord k = 0 := Memory.readWord_eq_zero fun i hi => hs.obuf_zero i (by omega)
    exact (busRead_of_target (target_obuf hfit) s).trans (congrArg BusReply.readDone hzero)

/-! ## Loading the key or the input (R56, R57, R91) -/

/-- The words `ks` of `words(l)` written to a buffer in order (R91). -/
def Memory.writeWords (l : List Byte) (ks : List Nat) (m : Memory) : Memory :=
  ks.foldl (fun m k => m.writeWord k (packedWord l k)) m

theorem Memory.read_writeWords (l : List Byte) (ks : List Nat) {m : Memory} (hm : m.wf) (i : Nat) :
    (m.writeWords l ks).read i = if i / 4 ∈ ks then l.getD i 0 else m.read i := by
  induction ks generalizing m with
  | nil => simp [Memory.writeWords]
  | cons k ks ih =>
    have htail : (m.writeWords l (k :: ks)).read i = _ := ih (Memory.wf_writeWord hm k (packedWord l k))
    rw [htail, Memory.read_writeWord hm]
    by_cases hk : i / 4 = k
    · subst hk
      simp [byteOf_packedWord]
    · simp [hk]

/-- All the words of `l` written: the buffer's first bytes are `l`. -/
theorem Memory.firstBytes_writeWords {m : Memory} (hm : m.wf) (l : List Byte) :
    (m.writeWords l (List.range (wordCount l.length))).firstBytes l.length = l := by
  refine Memory.firstBytes_eq fun i hi => ?_
  have hword : i / 4 ∈ List.range (wordCount l.length) := by
    rw [List.mem_range, wordCount]
    omega
  rw [Memory.read_writeWords l _ hm, if_pos hword]

/-- A buffer that the host loads: its window, its length register, and the state `load m n s` in which it holds `m` with
length `n` after an accepted write to either, with no move left (R56, R57). -/
structure LoadPort where
  /-- The window's base (R53). -/
  base : Nat
  /-- The length register's offset (R53). -/
  lengthOffset : Nat
  /-- The capacity in bytes (R10). -/
  cap : Nat
  /-- The buffer's contents. -/
  buffer : State → Memory
  /-- The length register's content. -/
  length : State → Word
  /-- The state with the buffer and its length replaced. -/
  load : Memory → Word → State → State
  cap_lt : cap < 2 ^ 32
  cap_words : cap % 4 = 0
  buffer_load : ∀ m n s, buffer (load m n s) = m
  length_load : ∀ m n s, length (load m n s) = n
  load_load : ∀ m n m' n' s, load m n (load m' n' s) = load m n s
  run_load : ∀ m n s, runMoves [] (load m n s) = .next (load m n s)
  run_length : ∀ v ms s, v.toNat ≤ cap → runMoves (wr lengthOffset v :: ms) s = runMoves ms (load (buffer s) v s)
  run_word : ∀ k w ms s, 4 * k < cap →
    runMoves (wr (base + 4 * k) w :: ms) s = runMoves ms (load ((buffer s).writeWord k w) (length s) s)

namespace LoadPort

variable (p : LoadPort) (l : List Byte)

/-- The writes of the words `ks` of `l` to the window. -/
def wordWrites (ks : List Nat) : List HostMove := ks.map fun k => wr (p.base + 4 * k) (packedWord l k)

theorem run_words_after_length {ks : List Nat} (hks : ∀ k ∈ ks, 4 * k < p.cap) (m : Memory) (n : Word) (s : State) :
    runMoves (p.wordWrites l ks) (p.load m n s) = .next (p.load (m.writeWords l ks) n s) := by
  induction ks generalizing m with
  | nil => exact p.run_load m n s
  | cons k ks ih =>
    rw [wordWrites, List.map_cons, p.run_word _ _ _ _ (hks k (by simp)), p.buffer_load, p.length_load, p.load_load]
    exact ih (fun k' hk' => hks k' (by simp [hk'])) _

theorem run_words_before_length {ks : List Nat} (hks : ∀ k ∈ ks, 4 * k < p.cap) {n : Word} (hn : n.toNat ≤ p.cap)
    (s : State) :
    runMoves (p.wordWrites l ks ++ [wr p.lengthOffset n]) s =
      .next (p.load ((p.buffer s).writeWords l ks) n s) := by
  induction ks generalizing s with
  | nil => exact (p.run_length n [] s hn).trans (p.run_load ..)
  | cons k ks ih =>
    rw [wordWrites, List.map_cons, List.cons_append, p.run_word _ _ _ _ (hks k (by simp))]
    refine (ih (fun k' hk' => hks k' (by simp [hk'])) _).trans ?_
    rw [p.buffer_load, p.load_load]
    rfl

/-- Both orders of R91's transactions load the same buffer, whose first bytes are `l`. -/
theorem run_loads (s : State) (hwf : (p.buffer s).wf) (hl : l.length ≤ p.cap) {ms : List HostMove}
    (hms : ms = wr p.lengthOffset (zext32 l.length) :: wrBytes p.base l ∨
      ms = wrBytes p.base l ++ [wr p.lengthOffset (zext32 l.length)]) :
    ∃ m, runMoves ms s = .next (p.load m (zext32 l.length) s) ∧
      m.firstBytes (zext32 l.length).toNat = l := by
  have hlen : (zext32 l.length).toNat = l.length := by
    rw [toNat_zext32, Nat.mod_eq_of_lt (Nat.lt_of_le_of_lt hl p.cap_lt)]
  have hks : ∀ k ∈ List.range (wordCount l.length), 4 * k < p.cap := fun k hk => by
    have hcap := p.cap_words
    rw [List.mem_range, wordCount] at hk
    omega
  have hn : (zext32 l.length).toNat ≤ p.cap := hlen.le.trans hl
  refine ⟨(p.buffer s).writeWords l (List.range (wordCount l.length)), ?_,
    by rw [hlen, Memory.firstBytes_writeWords hwf]⟩
  obtain rfl | rfl := hms
  · rw [p.run_length _ _ _ hn]
    exact p.run_words_after_length l hks _ _ s
  · exact p.run_words_before_length l hks hn s

end LoadPort

/-- A run takes its first step. -/
theorem run_of_step {s t : State} (h : step s = .next t) (k : Nat) :
    Host.Core.run core (k + 1) s = Host.Core.run core k t := by
  have hcore : core.step s = .next t := h
  simp only [Host.Core.run, hcore]

/-- A write that stores is one step, and the moves after it run from the state it leaves. -/
theorem runMoves_stored {addr v : Word} {ms : List HostMove} {s t : State}
    (h : busWrite Config.params addr 4 v { s with host := .write addr 4 v :: ms } = .stored t) :
    runMoves (.write addr 4 v :: ms) s = runMoves ms { t with host := [], reply := some .writeDone } :=
  run_of_step (step_stored rfl h) ms.length

/-- The master key's port (R56). -/
def mkPort : LoadPort where
  base := mkBase
  lengthOffset := 0x08
  cap := Config.params.mkMax
  buffer := State.mkw
  length := State.mklen
  load m n s := { s.clearKeys with mkw := m, mklen := n, host := [], reply := some .writeDone }
  cap_lt := by have := (Params.mkMax_bounds Config.params_wellFormed).2.2; omega
  cap_words := (Params.mkMax_bounds Config.params_wellFormed).1
  buffer_load _ _ _ := rfl
  length_load _ _ _ := rfl
  load_load _ _ _ _ _ := rfl
  run_load _ _ _ := rfl
  run_length _ _ _ hv := runMoves_stored (busWrite_mklen hv _)
  run_word _ _ _ _ hk := runMoves_stored (busWrite_of_target (target_mk hk) _ _)

/-- The input's port (R57). -/
def ibufPort : LoadPort where
  base := ibufBase
  lengthOffset := 0x0C
  cap := Config.params.ibufMax
  buffer := State.ibufw
  length := State.ilen
  load m n s := { s with ibufw := m, ilen := n, host := [], reply := some .writeDone }
  cap_lt := by have := (Params.ibufMax_bounds Config.params_wellFormed).2.2; omega
  cap_words := (Params.ibufMax_bounds Config.params_wellFormed).1
  buffer_load _ _ _ := rfl
  length_load _ _ _ := rfl
  load_load _ _ _ _ _ := rfl
  run_load _ _ _ := rfl
  run_length _ _ _ hv := runMoves_stored (busWrite_ilen hv _)
  run_word _ _ _ _ hk := runMoves_stored (busWrite_of_target (target_ibuf hk) _ _)

/-- Settles O57, by the loading of a buffer through the master key's port. -/
theorem ldkeyLoadsMasterKey : Obligations.LdkeyLoadsMasterKey := by
  intro s key hwf hfit ms hms
  obtain ⟨m, hrun, hkey⟩ := mkPort.run_loads key s hwf hfit hms
  exact ⟨_, hrun, hkey, rfl, rfl⟩

/-- Settles O58, by the loading of a buffer through the input's port. -/
theorem ldinLoadsInput : Obligations.LdinLoadsInput := by
  intro s x hwf hfit ms hms
  obtain ⟨m, hrun, hx⟩ := ibufPort.run_loads x s hwf hfit hms
  exact ⟨_, hrun, hx, rfl, rfl⟩

end Sys2Proof.Machine

/-! # Proofs for 30_encoding.md: the command word, its decoding, and its step -/

namespace Sys2Proof

/-! ## The word's fields as numbers (R80) -/

theorem toNat_opField (w : Word) : (opField w).toNat = w.toNat % 256 := by
  simp [opField]

theorem toNat_rField (w : Word) : (rField w).toNat = w.toNat / 256 % 16 := by
  simp [rField, Nat.shiftRight_eq_div_pow]

theorem toNat_highField (w : Word) : (highField w).toNat = w.toNat / 4096 := by
  have hw : w.toNat < 2 ^ 32 := w.isLt
  simp only [highField, BitVec.extractLsb'_toNat, Nat.shiftRight_eq_div_pow]
  omega

theorem toNat_encode (i : Instr) : (encode i).toNat = i.op.toNat + 256 * i.index.toNat := by
  cases i with
  | fround r => revert r; decide
  | _ => rfl

/-- That R80's three fields are a command's, said of the word's number. -/
theorem fields_iff_toNat {w : Word} {i : Instr} :
    highField w = 0 ∧ opField w = i.op ∧ rField w = i.index ↔
      w.toNat / 4096 = 0 ∧ w.toNat % 256 = i.op.toNat ∧ w.toNat / 256 % 16 = i.index.toNat := by
  rw [← toNat_highField, ← toNat_opField, ← toNat_rField]
  exact and_congr BitVec.toNat_inj.symm (and_congr BitVec.toNat_inj.symm BitVec.toNat_inj.symm)

/-- A word is a command's word exactly when bits 31:12 are 0 and the other two fields are the command's. -/
theorem eq_encode_iff {w : Word} {i : Instr} :
    w = encode i ↔ highField w = 0 ∧ opField w = i.op ∧ rField w = i.index := by
  have hop : i.op.toNat < 2 ^ 8 := i.op.isLt
  have hr : i.index.toNat < 2 ^ 4 := i.index.isLt
  rw [fields_iff_toNat, ← BitVec.toNat_inj, toNat_encode]
  omega

/-! ## The commands' fields (R84) -/

theorem Instr.op_bounds (i : Instr) : 1 ≤ i.op.toNat ∧ i.op.toNat ≤ 13 := by
  cases i <;> simp [Instr.op]

/-- Only FROUND has an index. -/
theorem Instr.index_eq_zero {i : Instr} (h : i.op ≠ 0x02) : i.index = 0 := by
  cases i with
  | fround r => exact absurd rfl h
  | _ => rfl

theorem Instr.fround_eq_iff {i : Instr} {r : BitVec 4} :
    .fround r.toFin = i ↔ 0x02 = i.op ∧ r = i.index := by
  cases i with
  | fround r' => simp [Instr.op, Instr.index, ← BitVec.toFin_inj]
  | _ => simp [Instr.op]

/-- The table in format N holds exactly the commands whose opcode is not FROUND's. -/
theorem lookup_formatN_iff {op : BitVec 8} {i : Instr} (h : op ≠ 0x02) :
    formatN.lookup op = some i ↔ op = i.op := by
  constructor
  · intro hi
    have hrows : ∀ row ∈ formatN, row.1 = row.2.op := by decide
    obtain ⟨_, _, hsplit, _⟩ := List.lookup_eq_some_iff.1 hi
    exact hrows (op, i) (by simp [hsplit])
  · rintro rfl
    cases i with
    | fround r => exact absurd rfl h
    | _ => rfl

/-! ## The decoder (R83) -/

/-- A word decodes to a command exactly when bits 31:12 are 0 and the other two fields are the command's. -/
theorem decode_eq_command_iff {w : Word} {i : Instr} :
    decode w = .command i ↔ highField w = 0 ∧ opField w = i.op ∧ rField w = i.index := by
  unfold decode
  split_ifs with hhigh hop hr
  · exact iff_of_false nofun fun ⟨hzero, _, _⟩ => hhigh hzero
  · simp [not_not.1 hhigh, hop, Instr.fround_eq_iff]
  · refine iff_of_false nofun fun ⟨_, hi, hindex⟩ => hr ?_
    rw [hindex, Instr.index_eq_zero (hi ▸ hop)]
  · have hindex : opField w = i.op → rField w = i.index := fun h => by
      rw [Instr.index_eq_zero (h ▸ hop), not_not.1 hr]
    rw [and_iff_right (not_not.1 hhigh), and_iff_left_of_imp hindex, ← lookup_formatN_iff hop]
    cases formatN.lookup (opField w) <;> simp

theorem decode_encode (i : Instr) : decode (encode i) = .command i :=
  decode_eq_command_iff.2 (eq_encode_iff.1 rfl)

/-- The decoder's commands, said of the word's number. -/
theorem decode_eq_command_iff_toNat {w : Word} {i : Instr} :
    decode w = .command i ↔
      w.toNat / 4096 = 0 ∧ w.toNat % 256 = i.op.toNat ∧ w.toNat / 256 % 16 = i.index.toNat :=
  decode_eq_command_iff.trans fields_iff_toNat

/-- "every 32-bit word is exactly one command or reserved" (R83). -/
theorem decode_reserved_of_ne_command {w : Word} (h : ∀ i, decode w ≠ .command i) : ∃ why, decode w = .reserved why := by
  cases hd : decode w with
  | command i => exact absurd hd (h i)
  | reserved why => exact ⟨why, rfl⟩

end Sys2Proof

namespace Sys2Proof.Machine

/-- Settles O3: both sides say what the word's three fields are. -/
theorem decodeExactlyInvertsEncode : Obligations.DecodeExactlyInvertsEncode :=
  fun _ _ => decode_eq_command_iff.trans eq_encode_iff.symm

/-- Settles O4, from the fields of the word that decodes to a command: no command has those of a reserved word. -/
theorem decodingFollowsFieldTests : Obligations.DecodingFollowsFieldTests := by
  refine fun w => ⟨fun hhigh => ?_, fun hhigh hop => ?_, fun _ hop hr => ?_, fun hhigh _ hr => ⟨fun hop => ?_, ?_⟩⟩
  · refine decode_reserved_of_ne_command fun i hi => ?_
    exact hhigh (decode_eq_command_iff_toNat.1 hi).1
  · have hlt : w.toNat / 256 % 16 < 16 := Nat.mod_lt _ (by decide)
    exact ⟨⟨_, hlt⟩, decode_eq_command_iff_toNat.2 ⟨hhigh, hop, rfl⟩, rfl⟩
  · refine decode_reserved_of_ne_command fun i hi => ?_
    obtain ⟨_, hiop, hir⟩ := decode_eq_command_iff_toNat.1 hi
    have hindex : i.index = 0 := Instr.index_eq_zero fun h => hop (by rw [hiop, h]; rfl)
    exact hr (by rw [hir, hindex]; rfl)
  · refine decode_reserved_of_ne_command fun i hi => ?_
    have hiop := (decode_eq_command_iff_toNat.1 hi).2.1
    have hbounds := i.op_bounds
    omega
  · intro op i hrow hop
    have hfields : op = i.op.toNat ∧ 0 = i.index.toNat := by
      refine (?_ : ∀ row ∈ _, row.1 = row.2.op.toNat ∧ 0 = row.2.index.toNat) (op, i) hrow
      decide
    exact decode_eq_command_iff_toNat.2 ⟨hhigh, hop.trans hfields.1, hr.trans hfields.2⟩

/-- Settles O2: each word is the encoder's word of its command. -/
theorem tableWordsDecode : Obligations.TableWordsDecode :=
  ⟨decode_encode .ksderive, decode_encode (.fround 7), decode_encode (.fround 15), decode_encode .encblk,
    decode_encode .encblkc, decode_encode .decblk, decode_encode .decblkc, decode_encode .pad, decode_encode .unpad,
    decode_encode .taggen, decode_encode .tagvfy, decode_encode .encrypt, decode_encode .decrypt,
    decode_encode .zeroize⟩

/-- `withFetchWord` of a word's number puts the write of that word in front (R81). -/
theorem State.host_withFetchWord (s : State) (w : Word) :
    (s.withFetchWord 32 w.toNat).host = .write 0 4 w :: s.host := by
  simp [State.withFetchWord, Nat.mod_eq_of_lt w.isLt]

/-- Settles O5, from the step of a command's write. -/
theorem stepExecutesDecodedCommand : Obligations.StepExecutesDecodedCommand := by
  have hstep (s : State) (w : Word) (rest : List HostMove) (i : Instr) (hhost : s.host = .write 0 4 w :: rest)
      (hd : decode w = .command i) : step s = exec i { s with host := rest, reply := some .writeDone } :=
    (step_command hhost).trans (runCommand_of_command _ hd)
  exact ⟨hstep, fun s w i hd => hstep _ w s.host i (s.host_withFetchWord w) hd⟩

/-- Settles O6, from the step of a command's write. -/
theorem reservedWordEndsIllegalCommand : Obligations.ReservedWordEndsIllegalCommand :=
  ⟨fun _ _ _ _ hhost hd => (step_command hhost).trans (runCommand_of_reserved _ hd), rfl⟩

end Sys2Proof.Machine

/-! # Proofs for 40_key_schedule.md: the key's hash chain, KSDERIVE, and the registers the whole-message commands skip -/

namespace Sys2Proof.Machine

/-! ## The hash chain (R101) -/

@[simp] theorem deriveKeys_nil (P : Params) : deriveKeys P [] = .error .emptyKey := rfl

theorem deriveKeys_of_ne_nil (P : Params) {key : List Byte} (h : key ≠ []) :
    deriveKeys P key = .ok (keyChain P key) :=
  if_neg (mt List.eq_nil_of_length_eq_zero h)

@[simp] theorem getElem_keyChain (P : Params) (key : List Byte) (i : Nat) (h : i < 16) :
    (keyChain P key)[i] = chainKey P key i := Vector.getElem_ofFn h

/-- Settles O16: the keys are those of the chain, whose recursion is the iterated hash. -/
theorem deriveIsIteratedHash : Obligations.DeriveIsIteratedHash := by
  intro P key
  constructor
  · rintro rfl
    exact deriveKeys_nil P
  · intro hne
    refine ⟨keyChain P key, deriveKeys_of_ne_nil P hne, ?_, fun i h => ?_⟩
    · rw [getElem_keyChain, chainKey]
    · rw [getElem_keyChain, getElem_keyChain, chainKey]

/-! ## KSDERIVE (R102) -/

theorem ksderive_of_error {P : Params} {s : State} {e : Error} (h : deriveKeys P s.keyBytes = .error e) :
    ksderive P s = s.clearKeys.raise e := by
  rw [ksderive, h]

theorem ksderive_of_ok {P : Params} {s : State} {k : RoundKeys} (h : deriveKeys P s.keyBytes = .ok k) :
    ksderive P s = State.succeed { s with rk := k, rkv := true } := by
  rw [ksderive, h]

/-- Settles O17: MKLEN = 0 is the empty key, on which alone `Derive` fails. -/
theorem ksderiveWritesRoundKeys : Obligations.KsderiveWritesRoundKeys := by
  intro s
  constructor
  · intro hlen
    have hk := deriveKeys_of_ne_nil Config.params (mt s.keyBytes_eq_nil.mp hlen)
    exact ⟨_, hk, congrArg Host.Outcome.next (ksderive_of_ok hk)⟩
  · intro hlen
    have hk : deriveKeys Config.params s.keyBytes = .error .emptyKey := by
      rw [s.keyBytes_eq_nil.mpr hlen, deriveKeys_nil]
    exact congrArg Host.Outcome.next (ksderive_of_error hk)

/-! ## What ENCRYPT and DECRYPT do not read (R38, R105, R162, R165) -/

/-- The state with the registers of `u` that hold operands and results of the smaller commands: IV, BLK, FO, TAG. -/
def State.withOperandsOf (s u : State) : State := { s with iv := u.iv, blk := u.blk, fo := u.fo, tag := u.tag }

/-- The state with every piece of `u` that a whole-message command does not read: those operand registers, the round keys,
the output and ERR. -/
def State.withUnreadOf (s u : State) : State :=
  { s.withOperandsOf u with rk := u.rk, rkv := u.rkv, obufw := u.obufw, olen := u.olen, err := u.err }

/-- The scrub and the delivery write over every unread piece but the operand registers, which they keep. -/
theorem State.deliver_scrub_withUnreadOf (r : Except Error (List Byte)) (s u : State) :
    (s.withUnreadOf u).scrub.deliver r = (s.scrub.deliver r).withOperandsOf u := by
  cases r with
  | ok x => rfl
  | error e => rfl

theorem encrypt_withUnreadOf (P : Params) (s u : State) :
    encrypt P (s.withUnreadOf u) = (encrypt P s).withOperandsOf u :=
  State.deliver_scrub_withUnreadOf (encryptWithIV P s.keyBytes s.ibuf (s.ivDraw P)) s.sampled u

theorem decrypt_withUnreadOf (P : Params) (s u : State) :
    decrypt P (s.withUnreadOf u) = (decrypt P s).withOperandsOf u :=
  State.deliver_scrub_withUnreadOf (decryptMessage P s.keyBytes s.ibuf) s u

/-- Settles O43: key, input and draw are the same, and the ending writes over the rest. -/
theorem wholeMessageCommandsIgnoreBlockRegisters : Obligations.WholeMessageCommandsIgnoreBlockRegisters := by
  intro i s u t hi hu h
  have hu : u = s.withUnreadOf u := hu
  rcases hi with rfl | rfl
  · cases h
    exact (congrArg execEncrypt hu).trans (congrArg Host.Outcome.next (encrypt_withUnreadOf _ s u))
  · cases h
    exact (congrArg execDecrypt hu).trans (congrArg Host.Outcome.next (decrypt_withUnreadOf _ s u))

end Sys2Proof.Machine

/-! # Proofs for 41_round_function.md: the round function and FROUND -/

namespace Sys2Proof.Machine

/-! ## The round function (R111) -/

theorem toList_right (b : Block) : (right b).toList = b.toList.drop 8 := by
  apply List.ext_getElem
  · simp
  · intro i _ _
    simp [right]

@[simp] theorem getElem_roundF (P : Params) (half : Half) (k : RoundKey) (j : Nat) (hj : j < 8) :
    (roundF P half k)[j] = (P.hash (half.toList ++ k.toList))[j] := by
  simp [roundF]

/-! ## FROUND (R112) -/

theorem fround_of_rkv {P : Params} {r : Fin 16} {s : State} (h : s.rkv = true) :
    fround P r s = State.succeed { s with fo := roundF P s.blkRight s.rk[r] } :=
  if_pos h

theorem fround_of_not_rkv {P : Params} {r : Fin 16} {s : State} (h : s.rkv = false) :
    fround P r s = s.raiseFault .operandNotReady :=
  if_neg (Bool.eq_false_iff.mp h)

/-- Settles O18: the two branches of FROUND, with `F` read byte by byte and its operand as the end of BLK. -/
theorem froundWritesTruncatedHash : Obligations.FroundWritesTruncatedHash := by
  intro r s
  constructor
  · intro hrkv
    refine ⟨_, congrArg Host.Outcome.next (fround_of_rkv hrkv), rfl, fun j hj => ?_⟩
    calc (roundF Config.params s.blkRight s.rk[r])[j]
        = (Config.hash (s.blkRight.toList ++ s.rk[r].toList))[j] := getElem_roundF _ _ _ j hj
      _ = (Config.hash (s.blk.toList.drop 8 ++ s.rk[r].toList))[j] := by rw [State.blkRight, toList_right]
  · intro hrkv
    exact congrArg Host.Outcome.next (fround_of_not_rkv hrkv)

end Sys2Proof.Machine

/-! # Proofs for 42_feistel_core.md: block encryption, block decryption, and the four block commands -/

namespace Sys2Proof.Machine

/-! ## Runs of rounds (R121, R122) -/

/-- Encryption rounds with the keys of a list, the first key first. -/
def encRounds (P : Params) (ks : List RoundKey) (h : Halves) : Halves := ks.foldl (fun h k => encRound P k h) h

/-- Decryption rounds with the keys of a list, the last key first. -/
def decRounds (P : Params) (ks : List RoundKey) (h : Halves) : Halves := ks.foldr (fun k h => decRound P k h) h

@[simp] theorem encRounds_cons (P : Params) (k : RoundKey) (ks : List RoundKey) (h : Halves) :
    encRounds P (k :: ks) h = encRounds P ks (encRound P k h) := rfl

@[simp] theorem decRounds_cons (P : Params) (k : RoundKey) (ks : List RoundKey) (h : Halves) :
    decRounds P (k :: ks) h = decRound P k (decRounds P ks h) := rfl

/-- Decryption rounds undo the encryption rounds with the same keys (R128). -/
@[simp] theorem decRounds_encRounds (P : Params) (ks : List RoundKey) (h : Halves) :
    decRounds P ks (encRounds P ks h) = h := by
  induction ks generalizing h with
  | nil => rfl
  | cons k ks ih => rw [encRounds_cons, decRounds_cons, ih, decRound_encRound]

/-- Encryption rounds undo the decryption rounds with the same keys (R128). -/
@[simp] theorem encRounds_decRounds (P : Params) (ks : List RoundKey) (h : Halves) :
    encRounds P ks (decRounds P ks h) = h := by
  induction ks with
  | nil => rfl
  | cons k ks ih => rw [decRounds_cons, encRounds_cons, encRound_decRound, ih]

/-! ## The two block functions -/

theorem encBlock_eq (P : Params) (b : Block) (k : RoundKeys) (c : Option Chaining) :
    encBlock P b k c = unsplit (encRounds P k.toList (mixChaining c (split b))) := rfl

theorem decBlock_eq (P : Params) (b : Block) (k : RoundKeys) (c : Option Chaining) :
    decBlock P b k c = unsplit (mixChaining c (decRounds P k.toList (split b))) := rfl

theorem decBlock_encBlock (P : Params) (b : Block) (k : RoundKeys) (c : Option Chaining) :
    decBlock P (encBlock P b k c) k c = b := by
  rw [encBlock_eq, decBlock_eq, split_unsplit, decRounds_encRounds, mixChaining_mixChaining, unsplit_split]

theorem encBlock_decBlock (P : Params) (b : Block) (k : RoundKeys) (c : Option Chaining) :
    encBlock P (decBlock P b k c) k c = b := by
  rw [encBlock_eq, decBlock_eq, split_unsplit, mixChaining_mixChaining, encRounds_decRounds, unsplit_split]

/-! ## The bytes of the halves -/

@[simp] theorem getElem_split_l (b : Block) (j : Nat) (hj : j < 8) : (split b).l[j] = b[j] := by
  simp [split, left]

@[simp] theorem getElem_split_r (b : Block) (j : Nat) (hj : j < 8) : (split b).r[j] = b[8 + j] := by
  simp [split, right]

theorem getElem_unsplit_left (h : Halves) (j : Nat) (hj : j < 8) : (unsplit h)[j] = h.l[j] := by
  rw [← getElem_split_l, split_unsplit]

theorem getElem_unsplit_right (h : Halves) (j : Nat) (hj : j < 8) : (unsplit h)[8 + j] = h.r[j] := by
  rw [← getElem_split_r, split_unsplit]

/-- "Output = Left‖Right" (R121 step 4). -/
theorem toList_unsplit (h : Halves) : (unsplit h).toList = h.l.toList ++ h.r.toList := by
  refine List.ext_getElem (by simp) fun i _ _ => ?_
  simp [unsplit, getElem_join, List.getElem_append]

@[simp] theorem mixChaining_r (c : Option Chaining) (h : Halves) : (mixChaining c h).r = h.r := by
  cases c <;> rfl

@[simp] theorem getElem_mixChaining_some_l (v : Chaining) (h : Halves) (j : Nat) (hj : j < 8) :
    (mixChaining (some v) h).l[j] = h.l[j] ^^^ v[j] := by
  simp [mixChaining_some]

/-- Only the first 8 bytes of a chaining value take part (R123). -/
theorem mixChaining_congr {cv dv : Chaining} (heq : ∀ j (hj : j < 8), cv[j] = dv[j]) :
    mixChaining (some cv) = mixChaining (some dv) := by
  have hslice : slice cv 0 8 = slice dv 0 8 := Vector.ext fun j hj => by simpa using heq j hj
  funext h
  rw [mixChaining_some, mixChaining_some, hslice]

/-- Chaining before an encryption is an exclusive or into the block's Left half (R131). -/
theorem encBlock_some (P : Params) (b : Block) (k : RoundKeys) (v : Chaining) :
    encBlock P b k (some v) = encBlock P (unsplit (mixChaining (some v) (split b))) k none := by
  rw [encBlock_eq, encBlock_eq, split_unsplit, mixChaining_none]

/-! ## The states between rounds -/

/-- The state of an encryption after its first `i` rounds, from the state `h` (R121). -/
def encState (P : Params) (k : RoundKeys) (h : Halves) (i : Nat) : Halves := encRounds P (k.toList.take i) h

@[simp] theorem encState_zero (P : Params) (k : RoundKeys) (h : Halves) : encState P k h 0 = h := rfl

theorem encState_succ (P : Params) (k : RoundKeys) (h : Halves) (i : Nat) (hi : i < 16) :
    encState P k h (i + 1) = encRound P k[i] (encState P k h i) := by
  have hlen : i < k.toList.length := by simpa using hi
  rw [encState, encRounds, List.take_succ_eq_append_getElem hlen, List.foldl_concat, Vector.getElem_toList]
  rfl

theorem encBlock_eq_encState (P : Params) (b : Block) (k : RoundKeys) (c : Option Chaining) :
    encBlock P b k c = unsplit (encState P k (mixChaining c (split b)) 16) := by
  rw [encBlock_eq, encState, List.take_of_length_le (by simp)]

/-- The state of a decryption after its rounds with `k[15]` down to `k[i]`, from the state `h` (R122). -/
def decState (P : Params) (k : RoundKeys) (h : Halves) (i : Nat) : Halves := decRounds P (k.toList.drop i) h

@[simp] theorem decState_sixteen (P : Params) (k : RoundKeys) (h : Halves) : decState P k h 16 = h := by
  rw [decState, List.drop_of_length_le (by simp), decRounds, List.foldr_nil]

theorem decState_of_lt (P : Params) (k : RoundKeys) (h : Halves) (i : Nat) (hi : i < 16) :
    decState P k h i = decRound P k[i] (decState P k h (i + 1)) := by
  have hlen : i < k.toList.length := by simpa using hi
  rw [decState, List.drop_eq_getElem_cons hlen, decRounds_cons, Vector.getElem_toList, decState]

theorem decBlock_eq_decState (P : Params) (b : Block) (k : RoundKeys) (c : Option Chaining) :
    decBlock P b k c = unsplit (mixChaining c (decState P k (split b) 0)) := rfl

/-! ## The laws of the block functions -/

/-- Settles O21: the halves are those of the states between the rounds. -/
theorem encBlockClosedForm : Obligations.EncBlockClosedForm := by
  intro P b k cv
  refine ⟨fun i => (encState P k (mixChaining cv (split b)) i).l, fun i => (encState P k (mixChaining cv (split b)) i).r,
    fun j hj => ?_, fun j hj => ?_, fun i hi => ⟨?_, fun j hj => ?_⟩, ?_⟩
  · cases cv with
    | none => exact getElem_split_l b j hj
    | some v => simp
  · simp
  · simp only [encState_succ _ _ _ i hi, encRound]
  · simp [encState_succ _ _ _ i hi, encRound]
  · rw [encBlock_eq_encState, toList_unsplit]

/-- Settles O22: the halves are those of the states between the rounds, and the chaining step comes after them. -/
theorem decBlockClosedForm : Obligations.DecBlockClosedForm := by
  intro P b k cv
  refine ⟨fun i => (decState P k (split b) i).l, fun i => (decState P k (split b) i).r,
    fun j hj => ?_, fun j hj => ?_, fun i hi => ⟨?_, fun j hj => ?_⟩, fun j hj => ?_, fun j hj => ?_⟩
  · simp
  · simp
  · simp only [decState_of_lt _ _ _ i hi, decRound]
  · simp [decState_of_lt _ _ _ i hi, decRound]
  · rw [decBlock_eq_decState, getElem_unsplit_left]
    cases cv with
    | none => rfl
    | some v => exact getElem_mixChaining_some_l v _ j hj
  · rw [decBlock_eq_decState, getElem_unsplit_right, mixChaining_r]

/-- Settles O23: the rounds cancel one by one, and the chaining step undoes itself. -/
theorem blockDecryptionInvertsEncryption : Obligations.BlockDecryptionInvertsEncryption :=
  fun P b k cv => ⟨decBlock_encBlock P b k cv, encBlock_decBlock P b k cv⟩

/-- Settles O24: the chaining step is the same for both values. -/
theorem chainingSecondHalfUnused : Obligations.ChainingSecondHalfUnused := by
  intro P b k cv dv heq
  constructor
  · rw [encBlock_eq, encBlock_eq, mixChaining_congr heq]
  · rw [decBlock_eq, decBlock_eq, mixChaining_congr heq]

/-- Settles O25: the block is that of the halves after the chaining step. -/
theorem chainingIsXorIntoLeft : Obligations.ChainingIsXorIntoLeft := by
  intro P b k cv
  refine ⟨unsplit (mixChaining (some cv) (split b)), fun j hj => ?_, fun j hj => ?_, ?_, encBlock_some P b k cv⟩
  · rw [getElem_unsplit_left _ j hj, getElem_mixChaining_some_l, getElem_split_l]
  · rw [getElem_unsplit_right _ j hj, mixChaining_r, getElem_split_r]
  · rw [encBlock_some, decBlock_encBlock]

/-! ## The block commands (R124 to R127) -/

theorem exec_encblk (s : State) :
    exec .encblk s = .next (blockCommand (fun s => encBlock Config.params s.blk s.rk none) s) := rfl

theorem exec_encblkc (s : State) :
    exec .encblkc s = .next (blockCommand (fun s => encBlock Config.params s.blk s.rk (some s.iv)) s) := rfl

theorem exec_decblk (s : State) :
    exec .decblk s = .next (blockCommand (fun s => decBlock Config.params s.blk s.rk none) s) := rfl

theorem exec_decblkc (s : State) :
    exec .decblkc s = .next (blockCommand (fun s => decBlock Config.params s.blk s.rk (some s.iv)) s) := rfl

theorem blockCommand_of_rkv {s : State} (h : s.rkv = true) (f : State → Block) :
    blockCommand f s = { s with blk := f s, err := .success } :=
  if_pos h

theorem blockCommand_of_not_rkv {s : State} (h : s.rkv = false) (f : State → Block) :
    blockCommand f s = { s with err := .fault .operandNotReady } :=
  if_neg (Bool.eq_false_iff.mp h)

/-- Both endings of two commands that are block commands. -/
theorem exec_endings_of_blockCommand {i j : Instr} {f g : State → Block}
    (hi : ∀ s, exec i s = .next (blockCommand f s)) (hj : ∀ s, exec j s = .next (blockCommand g s)) (s : State) :
    (s.rkv = true →
      exec i s = .next { s with blk := f s, err := .success } ∧
      exec j s = .next { s with blk := g s, err := .success }) ∧
    (s.rkv = false →
      exec i s = .next { s with err := .fault .operandNotReady } ∧
      exec j s = .next { s with err := .fault .operandNotReady }) := by
  rw [hi, hj]
  constructor
  · intro hrkv
    rw [blockCommand_of_rkv hrkv, blockCommand_of_rkv hrkv]
    exact ⟨rfl, rfl⟩
  · intro hrkv
    rw [blockCommand_of_not_rkv hrkv, blockCommand_of_not_rkv hrkv]
    exact ⟨rfl, rfl⟩

/-- Two block commands in a row restore the state when the second one's function takes the first one's result back to
BLK. -/
theorem exec_exec_of_blockCommand {i j : Instr} {f g : State → Block}
    (hi : ∀ s, exec i s = .next (blockCommand f s)) (hj : ∀ s, exec j s = .next (blockCommand g s)) {s : State}
    (hrkv : s.rkv = true) (hgf : g { s with blk := f s, err := .success } = s.blk) :
    ∃ t, exec i s = .next t ∧ exec j t = .next { s with err := .success } := by
  refine ⟨{ s with blk := f s, err := .success }, ?_, ?_⟩
  · rw [hi, blockCommand_of_rkv hrkv]
  · rw [hj, blockCommand_of_rkv (by exact hrkv), hgf]

/-- Settles O19: both endings of the block commands that run `EncBlock`. -/
theorem encryptBlockCommandsReplaceBlk : Obligations.EncryptBlockCommandsReplaceBlk :=
  exec_endings_of_blockCommand exec_encblk exec_encblkc

/-- Settles O20: both endings of the block commands that run `DecBlock`. -/
theorem decryptBlockCommandsReplaceBlk : Obligations.DecryptBlockCommandsReplaceBlk :=
  exec_endings_of_blockCommand exec_decblk exec_decblkc

/-- Settles O26: the second command's function inverts the first one's, with the round keys and IV unchanged between. -/
theorem blockCommandsUndoEachOther : Obligations.BlockCommandsUndoEachOther := by
  intro i j s hrkv hij
  simp only [List.mem_cons, Prod.mk.injEq, List.not_mem_nil, or_false] at hij
  obtain ⟨rfl, rfl⟩ | ⟨rfl, rfl⟩ | ⟨rfl, rfl⟩ | ⟨rfl, rfl⟩ := hij
  · exact exec_exec_of_blockCommand exec_encblk exec_decblk hrkv (decBlock_encBlock ..)
  · exact exec_exec_of_blockCommand exec_decblk exec_encblk hrkv (encBlock_decBlock ..)
  · exact exec_exec_of_blockCommand exec_encblkc exec_decblkc hrkv (decBlock_encBlock ..)
  · exact exec_exec_of_blockCommand exec_decblkc exec_encblkc hrkv (encBlock_decBlock ..)

end Sys2Proof.Machine

/-! # Proofs for 43_padder.md: `Pad`, `Unpad`, PAD and UNPAD -/

namespace Sys2Proof.Machine

/-! ## The two functions (R141, R142) -/

/-- Settles O27: the length of the padding is from 1 to 16 and completes a block. -/
theorem padAppendsPadLength : Obligations.PadAppendsPadLength := by
  intro d
  obtain ⟨hpos, hle, -⟩ := padLength_bounds d.length
  refine ⟨padLength d.length, rfl, hpos, hle, rfl, ?_⟩
  rw [length_padBytes, padLength]
  omega

/-- `Unpad` takes off any valid padding, whatever the length before it (R142). -/
theorem unpadBytes_append_replicate (u : List Byte) {p : Nat} (hpos : 1 ≤ p) (hle : p ≤ 16) :
    unpadBytes (u ++ List.replicate p (BitVec.ofNat 8 p)) = .ok u := by
  have hlast : (u ++ List.replicate p (BitVec.ofNat 8 p)).getLast? = some (BitVec.ofNat 8 p) := by
    rw [List.getLast?_append_of_ne_nil _ (mt (List.replicate_eq_nil_iff _).mp (by omega)), List.getLast?_replicate,
      if_neg (by omega)]
  have hval : (BitVec.ofNat 8 p).toNat = p := by
    rw [BitVec.toNat_ofNat, Nat.mod_eq_of_lt (by omega)]
  have hstart : (u ++ List.replicate p (BitVec.ofNat 8 p)).length - p = u.length := by simp
  simp only [unpadBytes, hlast, hval, hstart, List.drop_left, List.take_left]
  rw [if_neg (by omega), if_neg (by simp), if_neg (by simp)]

/-- What `Unpad` accepts ends in valid padding: its last byte is the length of the padding (R142). -/
theorem eq_append_replicate_of_unpadBytes {e u : List Byte} (h : unpadBytes e = .ok u) :
    ∃ p, 1 ≤ p ∧ p ≤ 16 ∧ e = u ++ List.replicate p (BitVec.ofNat 8 p) := by
  unfold unpadBytes at h
  split at h
  · cases h
  · rename_i b _
    split_ifs at h with hrange hlen hpad
    cases h
    refine ⟨b.toNat, by omega, by omega, ?_⟩
    rw [BitVec.ofNat_toNat, BitVec.setWidth_eq, ← not_not.mp hpad, List.take_append_drop]

theorem unpadBytes_eq_ok_iff {e u : List Byte} :
    unpadBytes e = .ok u ↔ ∃ p, 1 ≤ p ∧ p ≤ 16 ∧ e = u ++ List.replicate p (BitVec.ofNat 8 p) := by
  constructor
  · exact eq_append_replicate_of_unpadBytes
  · rintro ⟨p, hpos, hle, rfl⟩
    exact unpadBytes_append_replicate u hpos hle

theorem eq_invalidPadding_of_unpadBytes {e : List Byte} {x : Error} (h : unpadBytes e = .error x) :
    x = .invalidPadding := by
  obtain he | ⟨u, hu, -⟩ := unpadBytes_cases e
  · rw [he] at h
    cases h
    rfl
  · rw [hu] at h
    cases h

/-- Settles O28, from what `Unpad` takes off and what it accepts. -/
theorem unpadAcceptsExactlyPaddedInputs : Obligations.UnpadAcceptsExactlyPaddedInputs :=
  ⟨fun _ _ => unpadBytes_eq_ok_iff, fun _ _ => eq_invalidPadding_of_unpadBytes⟩

theorem unpadBytes_padBytes (d : List Byte) : unpadBytes (padBytes d) = .ok d := by
  obtain ⟨hpos, hle, -⟩ := padLength_bounds d.length
  exact unpadBytes_append_replicate d hpos hle

/-- `Pad` chooses the one length from 1 to 16 that completes a block (R141). -/
theorem eq_padLength {n p : Nat} (hpos : 1 ≤ p) (hle : p ≤ 16) (h : (n + p) % 16 = 0) : p = padLength n := by
  unfold padLength
  omega

/-- `Pad` restores what `Unpad` took off an input of whole blocks (R145 c). -/
theorem padBytes_of_unpadBytes {e u : List Byte} (h : unpadBytes e = .ok u) (hlen : e.length % 16 = 0) :
    padBytes u = e := by
  obtain ⟨p, hpos, hle, rfl⟩ := eq_append_replicate_of_unpadBytes h
  rw [List.length_append, List.length_replicate] at hlen
  rw [padBytes, ← eq_padLength hpos hle hlen]

/-- Settles O29; the input that `Pad` does not restore is a single byte of value 1. -/
theorem paddingLaws : Obligations.PaddingLaws := by
  refine ⟨fun d => ?_, fun e u => padBytes_of_unpadBytes, [1], [], by decide, by decide⟩
  obtain ⟨hpos, -, hmod⟩ := padLength_bounds d.length
  rw [length_padBytes]
  exact ⟨by omega, hmod, by omega, unpadBytes_padBytes d⟩

/-! ## PAD and UNPAD (R143, R144) -/

theorem exec_pad (s : State) : exec .pad s = .next (s.deliver (.ok (padBytes s.ibuf))) := rfl

theorem exec_unpad (s : State) : exec .unpad s = .next (s.deliver (unpadBytes s.ibuf)) := rfl

/-- A delivered result: its bytes and zeros in the buffer, and only the output and ERR change (R29). -/
theorem State.deliver_ok_effect (x : List Byte) (s : State) :
    s.deliver (.ok x) =
      { s with obufw := (s.deliver (.ok x)).obufw, olen := (s.deliver (.ok x)).olen, err := .success } ∧
    ∀ a, (s.deliver (.ok x)).obufw.read a = x.getD a 0 :=
  ⟨rfl, State.read_setOut x s⟩

/-- A delivered result that fits 32-bit lengths is the whole output (R29). -/
theorem State.output_deliver_ok {x : List Byte} (s : State) (hx : x.length < 2 ^ 32) :
    (s.deliver (.ok x)).obuf = x ∧ (s.deliver (.ok x)).olen.toNat = x.length := by
  have hobuf : (s.deliver (.ok x)).obuf = x := State.obuf_setOut s hx
  exact ⟨hobuf, by rw [← State.length_obuf, hobuf]⟩

/-- Settles O30: PAD delivers `Pad(IBUF)`, whose length is at most 16 above ILEN. -/
theorem padWritesPaddedInput : Obligations.PadWritesPaddedInput := by
  intro s
  obtain ⟨hframe, hread⟩ := State.deliver_ok_effect (padBytes s.ibuf) s
  refine ⟨_, exec_pad s, hframe, hread, fun hcap => State.output_deliver_ok s ?_⟩
  have hmax := (Params.ibufMax_bounds Config.params_wellFormed).2.2
  obtain ⟨-, hle, -⟩ := padLength_bounds s.ibuf.length
  rw [← State.length_ibuf] at hcap
  rw [length_padBytes]
  omega

/-- Settles O31: UNPAD delivers `Unpad(IBUF)`, which is shorter than the input, or the empty output and the error. -/
theorem unpadWritesUnpaddedInput : Obligations.UnpadWritesUnpaddedInput := by
  intro s
  constructor
  · intro u hu
    obtain ⟨hframe, hread⟩ := State.deliver_ok_effect u s
    have hshort : u.length < 2 ^ 32 := by
      have hlt := length_of_unpadBytes hu
      rw [State.length_ibuf] at hlt
      exact hlt.trans s.ilen.isLt
    exact ⟨_, by rw [exec_unpad, hu], hframe, hread, State.output_deliver_ok s hshort⟩
  · intro hu
    exact ⟨_, by rw [exec_unpad, hu], rfl, Memory.read_nil⟩

end Sys2Proof.Machine

/-! # Proofs for 44_authenticator.md: TAGGEN, TAGVFY, and tampered ciphertexts -/

namespace Sys2Proof.Machine

/-! ## TAGGEN and TAGVFY (R152 to R154) -/

@[simp] theorem verifyTag_iff {P : Params} {key data : List Byte} {t : Digest} :
    verifyTag P key data t = true ↔ tagOf P key data = t := beq_iff_eq

theorem taggen_of_mklen_eq_zero {s : State} (h : s.mklen = 0) (P : Params) :
    taggen P s = { s with err := .error .emptyKey } :=
  if_pos h

theorem taggen_of_mklen_ne_zero {s : State} (h : s.mklen ≠ 0) (P : Params) :
    taggen P s = { s with tag := tagOf P s.keyBytes s.ibuf, err := .success } :=
  if_neg h

theorem tagvfy_of_mklen_eq_zero {s : State} (h : s.mklen = 0) (P : Params) :
    tagvfy P s = { s with err := .error .emptyKey } :=
  if_pos h

theorem tagvfy_of_tagOf_eq {P : Params} {s : State} (h : s.mklen ≠ 0) (ht : tagOf P s.keyBytes s.ibuf = s.tag) :
    tagvfy P s = { s with err := .success } :=
  (if_neg h).trans (if_pos (verifyTag_iff.mpr ht))

theorem tagvfy_of_tagOf_ne {P : Params} {s : State} (h : s.mklen ≠ 0) (ht : tagOf P s.keyBytes s.ibuf ≠ s.tag) :
    tagvfy P s = { s with err := .error .integrityFailure } :=
  (if_neg h).trans (if_neg (mt verifyTag_iff.mp ht))

/-- Settles O32, by TAGGEN's two endings. -/
theorem taggenWritesTag : Obligations.TaggenWritesTag := by
  intro s
  constructor
  · intro hlen
    exact congrArg Host.Outcome.next (taggen_of_mklen_ne_zero hlen _)
  · intro hlen
    exact congrArg Host.Outcome.next (taggen_of_mklen_eq_zero hlen _)

/-- Settles O33, by TAGVFY's three endings. -/
theorem tagvfyComparesTag : Obligations.TagvfyComparesTag := by
  intro s
  refine ⟨fun hlen => ?_, fun hlen htag => ?_, fun hlen htag => ?_⟩
  · exact congrArg Host.Outcome.next (tagvfy_of_mklen_eq_zero hlen _)
  · exact congrArg Host.Outcome.next (tagvfy_of_tagOf_eq hlen htag)
  · exact congrArg Host.Outcome.next (tagvfy_of_tagOf_ne hlen htag)

/-- Settles O34: TAGVFY reads the key and the input that TAGGEN read, so it recomputes the tag TAGGEN wrote. -/
theorem generatedTagVerifiesOnlyItself : Obligations.GeneratedTagVerifiesOnlyItself := by
  intro s hlen
  refine ⟨{ s with tag := tagOf Config.params s.keyBytes s.ibuf, err := .success }, ?_, rfl, ?_, fun g hg => ?_⟩
  · exact congrArg Host.Outcome.next (taggen_of_mklen_ne_zero hlen _)
  · exact congrArg Host.Outcome.next (tagvfy_of_tagOf_eq hlen rfl)
  · exact congrArg Host.Outcome.next (tagvfy_of_tagOf_ne hlen hg.symm)

/-! ## Tampered ciphertexts (R155) -/

theorem encryptWithIV_eq_ok_iff {P : Params} {key plain x : List Byte} {iv : Chaining} :
    encryptWithIV P key plain iv = .ok x ↔
      key ≠ [] ∧ x = sealedBody P key plain iv ++ (tagOf P key (sealedBody P key plain iv)).toList := by
  unfold encryptWithIV
  split
  next hkey => simp [List.eq_nil_of_length_eq_zero hkey]
  next hkey => simp [mt List.length_eq_zero_iff.mpr hkey, eq_comm]

theorem parsedAuth_append_toList (body : List Byte) (t : Digest) : parsedAuth (body ++ t.toList) = body := by
  simp [parsedAuth]

theorem parsedTag_append_toList (body : List Byte) (t : Digest) : parsedTag (body ++ t.toList) = t := by
  simp [parsedTag]

theorem toList_parsedTag {c : List Byte} (h : 32 ≤ c.length) : (parsedTag c).toList = c.drop (c.length - 32) := by
  have hlen : (c.drop (c.length - 32)).length = 32 := by rw [List.length_drop]; omega
  rw [parsedTag, ofBytes_toList hlen.ge, List.take_of_length_le hlen.le]

/-- A sequence of at least 32 bytes is determined by its two parsed parts (R163). -/
theorem eq_of_parsedAuth_of_parsedTag {c d : List Byte} (hc : 32 ≤ c.length) (hd : 32 ≤ d.length)
    (hauth : parsedAuth c = parsedAuth d) (htag : parsedTag c = parsedTag d) : c = d := by
  rw [← List.take_append_drop (c.length - 32) c, ← List.take_append_drop (d.length - 32) d, ← toList_parsedTag hc,
    ← toList_parsedTag hd, htag]
  exact congrArg (· ++ _) hauth

/-- What ENCRYPT wrote carries the tag of its own bytes (R161). -/
theorem parsedTag_of_encryptWithIV {P : Params} {key plain x : List Byte} {iv : Chaining}
    (h : encryptWithIV P key plain iv = .ok x) : parsedTag x = tagOf P key (parsedAuth x) := by
  obtain ⟨-, rfl⟩ := encryptWithIV_eq_ok_iff.mp h
  rw [parsedAuth_append_toList, parsedTag_append_toList]

/-- With a non-empty key and a well-formed length, `Decrypt` gives IntegrityFailure exactly when the tags differ: `Unpad`
never does (R142, R164). -/
theorem decryptMessage_eq_integrityFailure_iff {P : Params} {key c : List Byte} (hkey : key ≠ []) (hlen : 48 ≤ c.length)
    (hmod : (c.length - 48) % 16 = 0) :
    decryptMessage P key c = .error .integrityFailure ↔ tagOf P key (parsedAuth c) ≠ parsedTag c := by
  rw [decryptMessage, if_neg (mt List.eq_nil_of_length_eq_zero hkey), if_neg hlen.not_gt, if_neg (not_not.mpr hmod)]
  split
  next htag =>
    refine iff_of_false (fun h => ?_) (not_not.mpr (verifyTag_iff.mp htag))
    cases eq_invalidPadding_of_unpadBytes h
  next htag => exact iff_of_true rfl (mt verifyTag_iff.mpr htag)

/-- The tag test on a sequence as long as a ciphertext of the same key (R155, R164). -/
theorem decryptMessage_eq_integrityFailure_iff_of_encryptWithIV {P : Params} {key plain x y : List Byte} {iv : Chaining}
    (h : encryptWithIV P key plain iv = .ok x) (hlen : y.length = x.length) :
    decryptMessage P key y = .error .integrityFailure ↔ tagOf P key (parsedAuth y) ≠ parsedTag y := by
  have hx := length_of_encryptWithIV h
  exact decryptMessage_eq_integrityFailure_iff (encryptWithIV_eq_ok_iff.mp h).1 (by omega) (by omega)

/-- Settles O42: the ciphertext carries the tag of its own bytes, so bytes with the same tagged part fail unless their tag
is the same too, and bytes with the same tag fail exactly when their tagged part has another tag. -/
theorem tamperingGivesIntegrityFailure : Obligations.TamperingGivesIntegrityFailure := by
  intro P key plain x y iv h hlen
  have hx := length_of_encryptWithIV h
  have htag := parsedTag_of_encryptWithIV h
  rw [decryptMessage_eq_integrityFailure_iff_of_encryptWithIV h hlen]
  constructor
  · intro htake hne heq
    have hauth : parsedAuth y = parsedAuth x := by rw [parsedAuth, hlen, htake, parsedAuth]
    refine hne (eq_of_parsedAuth_of_parsedTag (by omega) (by omega) hauth ?_)
    rw [← heq, hauth, htag]
  · intro hdrop
    have hsame : parsedTag y = parsedTag x := by rw [parsedTag, hlen, hdrop, parsedTag]
    rw [hsame, htag, parsedAuth, hlen]
    exact Iff.rfl

end Sys2Proof.Machine

/-! # Proofs for 45_block_processor.md: ciphertexts, their decryption, ENCRYPT and DECRYPT -/

namespace Sys2Proof.Machine

/-! ## Sequences of whole blocks (R161, R163) -/

theorem toList_blockAt {q : List Byte} {i : Nat} (h : 16 * i + 16 ≤ q.length) :
    (blockAt q i).toList = (q.drop (16 * i)).take 16 :=
  ofBytes_toList (by rw [List.length_drop]; omega)

theorem blockAt_eq {q : List Byte} {i : Nat} {b : Block} (h : 16 * i + 16 ≤ q.length)
    (hb : b.toList = (q.drop (16 * i)).take 16) : blockAt q i = b :=
  Vector.toList_inj.mp ((toList_blockAt h).trans hb.symm)

theorem chainingFor_of_pos {iv : Chaining} {i : Nat} (h : 1 ≤ i) : chainingFor iv i = none := if_neg (by omega)

/-- Block `i` of the blocks joined in order is the `i`-th one. -/
theorem take_drop_flatMap_blocks (f : Nat → Block) {i m : Nat} (h : i < m) :
    (((List.range m).flatMap fun j => (f j).toList).drop (16 * i)).take 16 = (f i).toList := by
  obtain ⟨n, rfl⟩ := Nat.exists_eq_add_of_lt h
  rw [Nat.add_assoc, Nat.add_comm n, List.range_add, List.flatMap_append,
    List.drop_left' (length_flatMap_blocks f i), List.range_add]
  simp

/-- The first `m` blocks of a sequence, joined, are its first `16 m` bytes. -/
theorem flatMap_blockAt {q : List Byte} {m : Nat} (h : 16 * m ≤ q.length) :
    ((List.range m).flatMap fun i => (blockAt q i).toList) = q.take (16 * m) := by
  induction m with
  | zero => rfl
  | succ m ih =>
    rw [List.range_succ, List.flatMap_append, ih (by omega), List.flatMap_singleton, toList_blockAt (by omega),
      Nat.mul_succ, List.take_add]

theorem take_drop_encBlocks (P : Params) (k : RoundKeys) (iv : Chaining) {q : List Byte} {i : Nat}
    (h : i < q.length / 16) :
    ((encBlocks P k iv q).drop (16 * i)).take 16 = (encBlock P (blockAt q i) k (chainingFor iv i)).toList :=
  take_drop_flatMap_blocks _ h

theorem take_drop_decBlocks (P : Params) (k : RoundKeys) (iv : Chaining) {q : List Byte} {i : Nat}
    (h : i < q.length / 16) :
    ((decBlocks P k iv q).drop (16 * i)).take 16 = (decBlock P (blockAt q i) k (chainingFor iv i)).toList :=
  take_drop_flatMap_blocks _ h

/-- Decryption block by block undoes encryption block by block, from R128 for each block. -/
theorem decBlocks_encBlocks (P : Params) (k : RoundKeys) (iv : Chaining) {q : List Byte} (h : q.length % 16 = 0) :
    decBlocks P k iv (encBlocks P k iv q) = q := by
  have hlen : (encBlocks P k iv q).length = 16 * (q.length / 16) := length_encBlocks P k iv q
  calc decBlocks P k iv (encBlocks P k iv q)
      = (List.range (q.length / 16)).flatMap fun i => (blockAt q i).toList := by
        rw [decBlocks, hlen, Nat.mul_div_cancel_left _ (by decide)]
        refine List.flatMap_congr fun i hi => ?_
        have hi : i < q.length / 16 := List.mem_range.mp hi
        rw [blockAt_eq (by omega) (take_drop_encBlocks P k iv hi).symm, decBlock_encBlock]
    _ = q := by rw [flatMap_blockAt (by omega), List.take_of_length_le (by omega)]

/-! ## The parsed body and chaining value (R163) -/

theorem length_parsedBody (c : List Byte) : (parsedBody c).length = c.length - 48 := by
  simp only [parsedBody, parsedAuth, List.length_drop, List.length_take]
  omega

theorem take_drop_parsedBody {c : List Byte} {i : Nat} (h : 16 * i + 16 ≤ c.length - 48) :
    ((parsedBody c).drop (16 * i)).take 16 = (c.drop (16 + 16 * i)).take 16 := by
  rw [parsedBody, parsedAuth, List.drop_drop, List.drop_take, List.take_take, Nat.min_eq_left (by omega)]

theorem parsedIv_eq {c : List Byte} {iv : Chaining} (h : 16 ≤ c.length) (hiv : iv.toList = c.take 16) :
    parsedIv c = iv :=
  Vector.toList_inj.mp ((ofBytes_toList h).trans hiv.symm)

/-! ## The bytes of a ciphertext (R161, R168) -/

theorem encryptWithIV_nil (P : Params) (plain : List Byte) (iv : Chaining) :
    encryptWithIV P [] plain iv = .error .emptyKey := rfl

theorem encryptWithIV_of_ne_nil (P : Params) {key : List Byte} (h : key ≠ []) (plain : List Byte) (iv : Chaining) :
    encryptWithIV P key plain iv =
      .ok (sealedBody P key plain iv ++ (tagOf P key (sealedBody P key plain iv)).toList) :=
  encryptWithIV_eq_ok_iff.mpr ⟨h, rfl⟩

theorem length_padBytes_div (plain : List Byte) : (padBytes plain).length / 16 = plain.length / 16 + 1 := by
  have := padLength_bounds plain.length
  rw [length_padBytes]
  omega

section
variable {P : Params} {key plain x : List Byte} {iv : Chaining}

theorem take_of_encryptWithIV (h : encryptWithIV P key plain iv = .ok x) : x.take 16 = iv.toList := by
  obtain ⟨-, rfl⟩ := encryptWithIV_eq_ok_iff.mp h
  rw [sealedBody, List.append_assoc, List.take_left' Vector.length_toList]

theorem parsedIv_of_encryptWithIV (h : encryptWithIV P key plain iv = .ok x) : parsedIv x = iv := by
  have hlen := length_of_encryptWithIV h
  exact parsedIv_eq (by omega) (take_of_encryptWithIV h).symm

theorem parsedBody_of_encryptWithIV (h : encryptWithIV P key plain iv = .ok x) :
    parsedBody x = encBlocks P (keyChain P key) iv (padBytes plain) := by
  obtain ⟨-, rfl⟩ := encryptWithIV_eq_ok_iff.mp h
  rw [parsedBody, parsedAuth_append_toList, sealedBody, List.drop_left' Vector.length_toList]

/-- Block `i` of the ciphertext is block `i` of the padded plaintext, enciphered. -/
theorem block_of_encryptWithIV (h : encryptWithIV P key plain iv = .ok x) {i : Nat} (hi : i < plain.length / 16 + 1) :
    (x.drop (16 + 16 * i)).take 16 =
      (encBlock P (blockAt (padBytes plain) i) (keyChain P key) (chainingFor iv i)).toList := by
  have hlen := length_of_encryptWithIV h
  rw [← take_drop_parsedBody (by omega), parsedBody_of_encryptWithIV h,
    take_drop_encBlocks P _ iv (by rwa [length_padBytes_div])]

end

/-- Settles O37: the ciphertext is the chaining value, the blocks and the tag, in this order. -/
theorem ciphertextLayout : Obligations.CiphertextLayout := by
  intro P key plain iv
  constructor
  · rintro rfl
    exact encryptWithIV_nil P plain iv
  · intro hne
    have hx := encryptWithIV_of_ne_nil P hne plain iv
    have hlen := length_of_encryptWithIV hx
    refine ⟨_, keyChain P key, hx, deriveKeys_of_ne_nil P hne, hlen, take_of_encryptWithIV hx,
      fun i hi b hb => ?_, ?_⟩
    · have hpad := length_padBytes_div plain
      rw [block_of_encryptWithIV hx hi, blockAt_eq (by omega) hb]
      rfl
    · rw [← toList_parsedTag (by omega), parsedTag_of_encryptWithIV hx]
      rfl

/-- Settles O38: both ciphertext blocks are the encryption, without chaining value, of one padded block. -/
theorem equalLaterBlocksEncryptAlike : Obligations.EqualLaterBlocksEncryptAlike := by
  intro P key p q x y iv iv' i j hx hy hi hip hj hjq heq
  have hp := length_padBytes_div p
  have hq := length_padBytes_div q
  have hblock : blockAt (padBytes p) i = blockAt (padBytes q) j :=
    blockAt_eq (by omega) ((toList_blockAt (by omega)).trans heq.symm)
  rw [block_of_encryptWithIV hx hip, block_of_encryptWithIV hy hjq, hblock, chainingFor_of_pos hi,
    chainingFor_of_pos hj]

/-! ## The tests of `Decrypt` (R164) -/

theorem decryptMessage_nil (P : Params) (c : List Byte) : decryptMessage P [] c = .error .emptyKey := rfl

theorem decryptMessage_of_badLength (P : Params) {key c : List Byte} (hkey : key ≠ [])
    (h : c.length < 48 ∨ (c.length - 48) % 16 ≠ 0) : decryptMessage P key c = .error .truncatedInput := by
  rw [decryptMessage, if_neg (mt List.eq_nil_of_length_eq_zero hkey)]
  rcases h with hshort | hmod
  · exact if_pos hshort
  · rw [if_pos hmod, ite_self]

/-- With the first four tests passed, the blocks are decrypted and their padding is taken off. -/
theorem decryptMessage_of_tagOf_eq {P : Params} {key c : List Byte} (hkey : key ≠ []) (hlen : 48 ≤ c.length)
    (hmod : (c.length - 48) % 16 = 0) (htag : tagOf P key (parsedAuth c) = parsedTag c) :
    decryptMessage P key c = unpadBytes (decBlocks P (keyChain P key) (parsedIv c) (parsedBody c)) := by
  rw [decryptMessage, if_neg (mt List.eq_nil_of_length_eq_zero hkey), if_neg hlen.not_gt, if_neg (not_not.mpr hmod),
    if_pos (verifyTag_iff.mpr htag)]

/-- The tag test on the received bytes as they stand (R164 test 4). -/
theorem tagOf_eq_parsedTag_iff {P : Params} {key c : List Byte} (h : 32 ≤ c.length) :
    tagOf P key (parsedAuth c) = parsedTag c ↔
      (P.keyedHash (P.macKeyOf key) (c.take (c.length - 32))).toList = c.drop (c.length - 32) := by
  rw [← toList_parsedTag h]
  exact Vector.toList_inj.symm

/-- Settles O39, test by test; the blocks of the body are the received bytes from the 16th on. -/
theorem decryptTestsInOrder : Obligations.DecryptTestsInOrder := by
  intro P key c
  refine ⟨?_, fun hkey hshort => decryptMessage_of_badLength P hkey (.inl hshort),
    fun hkey _ hmod => decryptMessage_of_badLength P hkey (.inr hmod), fun hkey hlen hmod htag => ?_,
    fun hkey hlen htag => ?_, fun hkey hlen hmod htag => ?_⟩
  · rintro rfl
    exact decryptMessage_nil P c
  · exact (decryptMessage_eq_integrityFailure_iff hkey hlen hmod).mpr (mt (tagOf_eq_parsedTag_iff (by omega)).mp htag)
  · have hbody : parsedBody c = [] := List.eq_nil_of_length_eq_zero (by rw [length_parsedBody, hlen])
    rw [decryptMessage_of_tagOf_eq hkey hlen.ge (by rw [hlen]) ((tagOf_eq_parsedTag_iff (by omega)).mpr htag), hbody]
    rfl
  · have hbody := length_parsedBody c
    have hq : (decBlocks P (keyChain P key) (parsedIv c) (parsedBody c)).length = c.length - 48 := by
      rw [length_decBlocks]
      omega
    refine ⟨_, _, deriveKeys_of_ne_nil P hkey,
      decryptMessage_of_tagOf_eq hkey hlen hmod ((tagOf_eq_parsedTag_iff (by omega)).mpr htag), hq,
      fun i hi b iv hb hiv => ?_⟩
    rw [take_drop_decBlocks P _ _ (by omega), blockAt_eq (by omega) (hb.trans (take_drop_parsedBody (by omega)).symm),
      parsedIv_eq (by omega) hiv]
    rfl

/-! ## Decryption undoes encryption (R166) -/

theorem decryptMessage_of_encryptWithIV {P : Params} {key plain x : List Byte} {iv : Chaining}
    (h : encryptWithIV P key plain iv = .ok x) : decryptMessage P key x = .ok plain := by
  have hlen := length_of_encryptWithIV h
  have hpad : (padBytes plain).length % 16 = 0 := by
    rw [length_padBytes]
    exact (padLength_bounds plain.length).2.2
  rw [decryptMessage_of_tagOf_eq (encryptWithIV_eq_ok_iff.mp h).1 (by omega) (by omega)
    (parsedTag_of_encryptWithIV h).symm, parsedIv_of_encryptWithIV h, parsedBody_of_encryptWithIV h,
    decBlocks_encBlocks P _ iv hpad, unpadBytes_padBytes]

/-- Settles O40: the parsed tag, chaining value and body are those that encryption wrote. -/
theorem decryptReturnsEncryptedPlaintext : Obligations.DecryptReturnsEncryptedPlaintext := by
  intro P key plain iv hkey
  have hx := encryptWithIV_of_ne_nil P hkey plain iv
  exact ⟨_, hx, decryptMessage_of_encryptWithIV hx⟩

/-! ## ENCRYPT and DECRYPT (R162, R165) -/

theorem exec_encrypt_of_result {s : State} {r : Except Error (List Byte)}
    (h : encryptWithIV Config.params s.keyBytes s.ibuf (drawOf (Config.rnd s.draws)) = r) :
    exec .encrypt s = .next (s.sampled.scrub.deliver r) := by
  rw [← h]
  rfl

theorem exec_decrypt_of_result {s : State} {r : Except Error (List Byte)}
    (h : decryptMessage Config.params s.keyBytes s.ibuf = r) : exec .decrypt s = .next (s.scrub.deliver r) := by
  rw [← h]
  rfl

/-- A ciphertext of an input within the capacity fits 32-bit lengths (R10, R36 a). -/
theorem length_lt_of_encryptWithIV_ibuf {s : State} {key x : List Byte} {iv : Chaining}
    (h : encryptWithIV Config.params key s.ibuf iv = .ok x) (hcap : s.ilen.toNat ≤ Config.params.ibufMax) :
    x.length < 2 ^ 32 := by
  have hmax := (Params.ibufMax_bounds Config.params_wellFormed).2.2
  rw [length_of_encryptWithIV h, State.length_ibuf]
  omega

/-- A decrypted input fits 32-bit lengths. -/
theorem length_lt_of_decryptMessage_ibuf {P : Params} {s : State} {key x : List Byte}
    (h : decryptMessage P key s.ibuf = .ok x) : x.length < 2 ^ 32 := by
  have hlt := length_of_decryptMessage h
  rw [State.length_ibuf] at hlt
  exact hlt.trans s.ilen.isLt

/-- Settles O41: `Decrypt` of the output under the same key is the first input, whose length fits 32 bits. -/
theorem encryptThenDecryptReturnsInput : Obligations.EncryptThenDecryptReturnsInput := by
  intro s u hkey hcap
  have hx := encryptWithIV_of_ne_nil Config.params (mt s.keyBytes_eq_nil.mp hkey) s.ibuf (drawOf (Config.rnd s.draws))
  have hout := (State.output_deliver_ok s.sampled.scrub (length_lt_of_encryptWithIV_ibuf hx (by omega))).1
  refine ⟨_, exec_encrypt_of_result hx, rfl, fun hk hin => ?_⟩
  have hd : decryptMessage Config.params u.keyBytes u.ibuf = .ok s.ibuf := by
    rw [hk, hin, hout, decryptMessage_of_encryptWithIV hx]
  exact ⟨_, exec_decrypt_of_result hd, rfl,
    (State.output_deliver_ok u.scrub (length_lt_of_decryptMessage_ibuf hd)).1⟩

/-- Settles O35: ENCRYPT delivers `EncryptWithIV`, which fails on the empty key alone, to the sampled and scrubbed
state. -/
theorem encryptWritesCiphertextAndScrubs : Obligations.EncryptWritesCiphertextAndScrubs := by
  intro s
  constructor
  · intro hkey
    have hx :=
      encryptWithIV_of_ne_nil Config.params (mt s.keyBytes_eq_nil.mp hkey) s.ibuf (drawOf (Config.rnd s.draws))
    obtain ⟨hframe, hread⟩ := State.deliver_ok_effect _ s.sampled.scrub
    exact ⟨_, _, exec_encrypt_of_result hx, hx, hframe, Memory.read_nil, Memory.read_nil, hread,
      fun hcap => State.output_deliver_ok s.sampled.scrub (length_lt_of_encryptWithIV_ibuf hx hcap)⟩
  · intro hkey
    have hx : encryptWithIV Config.params s.keyBytes s.ibuf (drawOf (Config.rnd s.draws)) = .error .emptyKey := by
      rw [s.keyBytes_eq_nil.mpr hkey, encryptWithIV_nil]
    exact ⟨_, exec_encrypt_of_result hx, rfl, Memory.read_nil, Memory.read_nil, Memory.read_nil⟩

/-- Settles O36: DECRYPT delivers the result of `Decrypt`, or its error with an empty output, to the scrubbed state. -/
theorem decryptWritesPlaintextAndScrubs : Obligations.DecryptWritesPlaintextAndScrubs := by
  intro s
  constructor
  · intro x hx
    obtain ⟨hframe, hread⟩ := State.deliver_ok_effect x s.scrub
    exact ⟨_, exec_decrypt_of_result hx, hframe, Memory.read_nil, Memory.read_nil, hread,
      State.output_deliver_ok s.scrub (length_lt_of_decryptMessage_ibuf hx)⟩
  · intro e he
    exact ⟨_, exec_decrypt_of_result he, rfl, Memory.read_nil, Memory.read_nil, Memory.read_nil⟩

end Sys2Proof.Machine

/-! # Proofs for 46_housekeeping.md: ZEROIZE (R182) -/

namespace Sys2Proof.Machine

theorem exec_zeroize (s : State) : exec .zeroize s = .next (zeroize s) := rfl

/-- ZEROIZE puts every part at its reset value: `SetOut([])` empties the output, and the scrub, the zeroed registers and
the success ending cover the rest. -/
theorem zeroize_eq_reset (s : State) :
    zeroize s = { State.reset with draws := s.draws, host := s.host, reply := s.reply } := by
  rw [zeroize, State.setOut_nil]
  rfl

/-- Settles O45: ZEROIZE completes in the reset state, with the model's own fields unchanged. -/
theorem zeroizeLeavesResetState : Obligations.ZeroizeLeavesResetState := by
  intro s
  rw [exec_zeroize, zeroize_eq_reset]

end Sys2Proof.Machine

/-! # Proofs for 60_exceptions.md: every step and command completes, its endings, and what a failure leaves -/

namespace Sys2Proof.Machine

/-! ## Every command and every step completes (R85, R202) -/

/-- No arm of the dispatch faults or refuses (R202). -/
theorem exec_completes (i : Instr) (s : State) : ∃ t, exec i s = .next t := by
  cases i <;> exact ⟨_, rfl⟩

theorem runCommand_completes (w : Word) (s : State) : ∃ t, runCommand w s = .next t := by
  cases hd : decode w with
  | command i =>
    rw [runCommand_of_command s hd]
    exact exec_completes i s
  | reserved why => exact ⟨_, runCommand_of_reserved s hd⟩

theorem step_completes (s : State) : ∃ t, step s = .next t := by
  rcases hhost : s.host with _ | ⟨move, rest⟩
  · exact ⟨_, step_idle hhost⟩
  · cases move with
    | read addr size => exact ⟨_, step_read hhost⟩
    | reset => exact ⟨_, step_reset hhost⟩
    | write addr size v =>
      cases hw : busWrite Config.params addr size v s with
      | refused => exact ⟨_, step_refused hhost hw⟩
      | stored u => exact ⟨_, step_stored hhost hw⟩
      | command w =>
        obtain ⟨rfl, rfl, rfl⟩ := busWrite_command.mp hw
        rw [step_command hhost]
        exact runCommand_completes w _

/-- Settles O9, by the host's next move for a step and by the command's arm for a command. -/
theorem everyStepHasNextState : Obligations.EveryStepHasNextState :=
  ⟨step_completes, exec_completes⟩

/-! ## The errors of the cipher's functions (R191) -/

theorem eq_emptyKey_of_deriveKeys {P : Params} {key : List Byte} {e : Error} (h : deriveKeys P key = .error e) :
    e = .emptyKey := by
  by_cases hkey : key = []
  · rw [hkey, deriveKeys_nil] at h
    cases h
    rfl
  · rw [deriveKeys_of_ne_nil P hkey] at h
    cases h

theorem eq_emptyKey_of_encryptWithIV {P : Params} {key plain : List Byte} {iv : Chaining} {e : Error}
    (h : encryptWithIV P key plain iv = .error e) : e = .emptyKey := by
  by_cases hkey : key = []
  · rw [hkey, encryptWithIV_nil] at h
    cases h
    rfl
  · rw [encryptWithIV_of_ne_nil P hkey] at h
    cases h

/-- `Decrypt` fails with the error of its first failing test (R164). -/
theorem mem_errors_of_decryptMessage {P : Params} {key c : List Byte} {e : Error}
    (h : decryptMessage P key c = .error e) :
    e ∈ [Error.emptyKey, .truncatedInput, .integrityFailure, .invalidPadding] := by
  by_cases hkey : key = []
  · rw [hkey, decryptMessage_nil] at h
    cases h
    decide
  by_cases hlen : c.length < 48 ∨ (c.length - 48) % 16 ≠ 0
  · rw [decryptMessage_of_badLength P hkey hlen] at h
    cases h
    decide
  obtain ⟨hlong, hmod⟩ : 48 ≤ c.length ∧ (c.length - 48) % 16 = 0 := by omega
  by_cases htag : tagOf P key (parsedAuth c) = parsedTag c
  · rw [decryptMessage_of_tagOf_eq hkey hlong hmod htag] at h
    cases eq_invalidPadding_of_unpadBytes h
    decide
  · rw [(decryptMessage_eq_integrityFailure_iff hkey hlong hmod).mpr htag] at h
    cases h
    decide

/-! ## The endings of the commands (R190 to R194) -/

/-- A delivery ends with success or with one of the errors the result can have. -/
theorem State.err_deliver_mem {r : Except Error (List Byte)} {es : List Error} (h : ∀ e, r = .error e → e ∈ es)
    (s : State) : (s.deliver r).err ∈ Ending.success :: es.map Ending.error := by
  cases r with
  | ok x => exact List.mem_cons_self
  | error e => exact List.mem_cons_of_mem _ (List.mem_map_of_mem (h e rfl))

theorem err_ksderive_mem (P : Params) (s : State) : (ksderive P s).err ∈ [Ending.success, .error .emptyKey] := by
  cases hk : deriveKeys P s.keyBytes with
  | ok k => simp [ksderive_of_ok hk]
  | error e => simp [ksderive_of_error hk, eq_emptyKey_of_deriveKeys hk]

theorem err_fround_mem (P : Params) (r : Fin 16) (s : State) :
    (fround P r s).err ∈ [Ending.success, .fault .operandNotReady] := by
  cases hrkv : s.rkv with
  | true => simp [fround_of_rkv hrkv]
  | false => simp [fround_of_not_rkv hrkv]

theorem err_blockCommand_mem (f : State → Block) (s : State) :
    (blockCommand f s).err ∈ [Ending.success, .fault .operandNotReady] := by
  cases hrkv : s.rkv with
  | true => simp [blockCommand_of_rkv hrkv]
  | false => simp [blockCommand_of_not_rkv hrkv]

theorem err_taggen_mem (P : Params) (s : State) : (taggen P s).err ∈ [Ending.success, .error .emptyKey] := by
  by_cases hlen : s.mklen = 0
  · simp [taggen_of_mklen_eq_zero hlen]
  · simp [taggen_of_mklen_ne_zero hlen]

theorem err_tagvfy_mem (P : Params) (s : State) :
    (tagvfy P s).err ∈ [Ending.success, .error .emptyKey, .error .integrityFailure] := by
  by_cases hlen : s.mklen = 0
  · simp [tagvfy_of_mklen_eq_zero hlen]
  · by_cases htag : tagOf P s.keyBytes s.ibuf = s.tag
    · simp [tagvfy_of_tagOf_eq hlen htag]
    · simp [tagvfy_of_tagOf_ne hlen htag]

/-- Settles O13: each command's endings are those of the shared operation or of the cipher's function behind it. -/
theorem endingsOfEachCommand : Obligations.EndingsOfEachCommand := by
  intro i s t h
  cases i with
  | ksderive => cases h; exact err_ksderive_mem _ s
  | fround r => cases h; exact err_fround_mem _ r s
  | encblk => cases h; exact err_blockCommand_mem _ s
  | encblkc => cases h; exact err_blockCommand_mem _ s
  | decblk => cases h; exact err_blockCommand_mem _ s
  | decblkc => cases h; exact err_blockCommand_mem _ s
  | pad => cases h; exact List.mem_singleton_self _
  | unpad =>
    cases h
    exact State.err_deliver_mem (fun e he => List.mem_singleton.mpr (eq_invalidPadding_of_unpadBytes he)) s
  | taggen => cases h; exact err_taggen_mem _ s
  | tagvfy => cases h; exact err_tagvfy_mem _ s
  | encrypt =>
    cases h
    exact State.err_deliver_mem (fun e he => List.mem_singleton.mpr (eq_emptyKey_of_encryptWithIV he)) s.sampled.scrub
  | decrypt => cases h; exact State.err_deliver_mem (fun e => mem_errors_of_decryptMessage) s.scrub
  | zeroize => cases h; exact List.mem_singleton_self _

/-! ## What a failure leaves (R160, R196) -/

/-- A delivery that does not succeed is of an error, and `SetOut([])` left the output empty (R29). -/
theorem State.output_zero_of_deliver_failed {r : Except Error (List Byte)} {s : State}
    (h : (s.deliver r).err ≠ .success) : (s.deliver r).olen = 0 ∧ ∀ a, (s.deliver r).obufw.read a = 0 := by
  cases r with
  | ok x => exact absurd rfl h
  | error e => exact ⟨rfl, Memory.read_nil⟩

/-- Settles O44: the three commands end by a delivery. -/
theorem failureLeavesNoOutput : Obligations.FailureLeavesNoOutput := by
  intro i s t hi h herr
  simp only [List.mem_cons, List.not_mem_nil, or_false] at hi
  obtain rfl | rfl | rfl := hi
  · cases (exec_unpad s).symm.trans h
    exact State.output_zero_of_deliver_failed herr
  · cases (exec_encrypt_of_result rfl).symm.trans h
    exact State.output_zero_of_deliver_failed herr
  · cases (exec_decrypt_of_result rfl).symm.trans h
    exact State.output_zero_of_deliver_failed herr

end Sys2Proof.Machine

/-! # Proofs for 70_reset_and_hazards.md: the idle step and the reset move (R220, R221) -/

namespace Sys2Proof.Machine

/-- Settles O7, by the rule for a step with no move waiting. -/
theorem idleCoreChangesNothing : Obligations.IdleCoreChangesNothing :=
  fun _ => step_idle

/-- The reset input's state, written out: what lies outside the core stays (R220, logs 2, 4 and 7). -/
theorem State.resetCore_eq (rest : List HostMove) (s : State) :
    s.resetCore rest = { State.reset with draws := s.draws, host := rest } := rfl

/-- Settles O8, by the rule for a step that takes the reset move. -/
theorem resetMoveRestoresResetState : Obligations.ResetMoveRestoresResetState := by
  intro s rest hhost
  rw [step_reset hhost, State.resetCore_eq]

end Sys2Proof.Machine
